-- ==== Sys2Proof/Word.lean ====
section
/-! DEFINITION. The words of the block (R9), the status enumeration (R16), and the shapes in which a request's
fields reach an operation. -/

namespace Sys2Proof

/-- A byte of IN, OUT or EOUT (R12, R50). -/
abbrev Byte := BitVec 8

/-- A 16-bit field: a count, a schedule, an event id, an event payload (R9). -/
abbrev Half := BitVec 16

/-- A 32-bit pattern (R9). -/
abbrev Word := BitVec 32

/-- ParameterAddress: a 16-bit unsigned key of the parameter space (R9, R54). -/
abbrev Addr := BitVec 16

/-- ParameterValue: the two's-complement pattern of a signed 32-bit value (R9); `BitVec.toInt` is its number. -/
abbrev Value := BitVec 32

/-- The address of an additional parameter, six bits (R9, R89). -/
abbrev SixBit := BitVec 6

/-- An opaque reference to a registered collaborator (R23): the block compares nothing on it, so a number names it. -/
abbrev Ref := Nat

/-- The six non-Ok status codes (R16, R230). -/
inductive ErrorCode where
  | invalidType
  | invalidAddress
  | invalidValue
  | lowLevelError
  | readOnly
  | invalidLength
  deriving DecidableEq, Repr

/-- The closed enumeration of seven status codes (R16): Ok, or one of the six others. -/
inductive Status where
  | ok
  | error (c : ErrorCode)
  deriving DecidableEq, Repr

/-- What follows the tag of a request: its fields, when the packet has the length that is valid for its tag (R82), or the
bytes after the tag, when it has not. -/
inductive Body (α : Type) where
  | valid (fields : α)
  | badLength (rest : List Byte)
  deriving DecidableEq, Repr

/-- The fields of an RDM request (R82). -/
structure RdmFields where
  start : Addr
  count : Half
  deriving DecidableEq, Repr

/-- The fields of a WRM request (R82): the count field is the number of values. -/
structure WrmFields where
  start : Addr
  values : List Value
  deriving DecidableEq, Repr

/-- The fields of a WRS request (R82). -/
structure WrsFields where
  addr : Addr
  value : Value
  deriving DecidableEq, Repr

end Sys2Proof
end

