-- ==== Sys2Proof/Machine/Operands.lean ====
section
/-! DEFINITION. Byte order and field assembly (R13, R56, R90), the fields of the packed additional-parameter word (R89),
and the layouts of the outbound messages (R86 to R88). -/

namespace Sys2Proof.Machine

/-- `u16(b0, b1)`: a 16-bit field, first byte most significant (R13). -/
def u16 (b0 b1 : Byte) : Half := BitVec.ofNat 16 (256 * b0.toNat + b1.toNat)

/-- `s32(b0, b1, b2, b3)`: the pattern of a ParameterValue, first byte most significant (R13). -/
def s32 (b0 b1 b2 b3 : Byte) : Value :=
  BitVec.ofNat 32 (2 ^ 24 * b0.toNat + 2 ^ 16 * b1.toNat + 2 ^ 8 * b2.toNat + b3.toNat)

/-- `be16(v)` (R13). -/
def be16 (v : Half) : List Byte := [v.extractLsb' 8 8, v.extractLsb' 0 8]

/-- `be32(v)` (R13). -/
def be32 (v : Word) : List Byte :=
  [v.extractLsb' 24 8, v.extractLsb' 16 8, v.extractLsb' 8 8, v.extractLsb' 0 8]

/-- Field j of the packed additional-parameter word: bits 6j+5 down to 6j (R89). -/
def packedField (packed : Word) (j : Nat) : SixBit := packed.extractLsb' (6 * j) 6

/-- `trunc_16(start + i)`: the i-th address of a multi-parameter operation (R66). -/
def addrAt (start : Addr) (i : Nat) : Addr := start + BitVec.ofNat 16 i

/-- `zext_16(a)`: the parameter address of an additional parameter (R90). -/
def additionalAddr (a : SixBit) : Addr := a.setWidth 16

/-- The length of a multi-parameter packet with this many values: 5 + 4·count, over the integers (R82, R83). -/
def multiLength (count : Nat) : Nat := 5 + 4 * count

/-- The Event message (R86). -/
def eventMessage (eventId payload : Half) : List Byte := 0x20 :: (be16 eventId ++ be16 payload)

/-- The payload of the start event: the count clamped at 0, then truncated to 16 bits (R171). -/
def startPayload (resetCount : Word) : Half :=
  if resetCount.toInt < 0 then 0 else resetCount.setWidth 16

/-- The PairEvent message (R87). -/
def pairMessage (tag parameterId : Byte) (value : Word) (diff : Half) : List Byte :=
  tag :: parameterId :: (be32 value ++ be16 diff)

/-- One additional-parameter block of a ShortRegular message (R88). -/
def additionalBlock (a : SixBit) (v : Value) : List Byte := a.setWidth 8 :: be32 v

/-- APC_DECODE's loop (R190): take the low six bits of the remaining value, stop at 0, else shift it right
arithmetically by six, for as many iterations as are left. -/
def unpackFields : Nat → Word → List SixBit
  | 0, _ => []
  | n + 1, rem =>
    let a : SixBit := rem.extractLsb' 0 6
    if a = 0 then [] else a :: unpackFields n (rem.sshiftRight 6)

/-- The addresses in a packed word: at most five iterations (R190). -/
def unpackAddresses (packed : Word) : List SixBit := unpackFields 5 packed

/-- Minutes since midnight (R200). -/
def minuteOfDay (hour minute : Byte) : Nat := 60 * hour.toNat + minute.toNat

/-- Seconds since midnight (R210). -/
def secondOfDay (hour minute second : Byte) : Nat := 3600 * hour.toNat + 60 * minute.toNat + second.toNat

/-- SCH's period in minutes (R200). -/
def minutePeriod (schedule : Half) : Nat := 1440 / schedule.toNat

/-- PSCH's period in seconds (R210). -/
def secondPeriod (schedule : Half) : Nat := 86400 / schedule.toNat

/-- The time operands of a poll are in their calendar ranges (R218). -/
def calendarTime (hour minute second : Byte) : Bool :=
  decide (hour.toNat ≤ 23) && decide (minute.toNat ≤ 59) && decide (second.toNat ≤ 59)

end Sys2Proof.Machine
end

