-- ==== Sys2Proof/Machine/Flags.lean ====
section
/-! DEFINITION. The tag map (R91), the flag bits of a tag byte (R81) and the numbers of the status codes (R16, R230). The block has no
condition codes (R31). -/

namespace Sys2Proof.Machine

/-- The seven request handlers of PARSE (R5). -/
inductive Handler where
  | rdm | wrm | rds | wrs | fwu | ctl | unk
  deriving DecidableEq, Repr

/-- Classification of in[0], complete over all 256 values; the match is on the whole byte (R91). -/
def classify (tag : Byte) : Handler :=
  match tag.toNat with
  | 0x03 => .rdm
  | 0x06 => .wrs
  | 0x07 => .rds
  | 0x10 => .wrm
  | 0x27 => .ctl
  | 0x29 => .fwu
  | _ => .unk

/-- The tag of an error frame: the request's tag with bit 6 set, whatever the tag is (R84). -/
def errorTag (tag : Byte) : Byte := tag ||| 0x40

/-- The tag of a ShortRegular message: bit 7 set over the parameter number (R88). -/
def regularTag (parameterNumber : Byte) : Byte := 0x80 ||| parameterNumber

/-- The ShortRegular core of seven bytes (R88). -/
def shortCore (payload : Word) (parameterNumber : Byte) (schedule : Half) : List Byte :=
  regularTag parameterNumber :: (be16 schedule ++ be32 payload)

/-- The number of a non-Ok status (R16). -/
def errorNumber : ErrorCode → Byte
  | .invalidType => 1
  | .invalidAddress => 2
  | .invalidValue => 3
  | .lowLevelError => 4
  | .readOnly => 5
  | .invalidLength => 6

/-- The number of a status (R16). -/
def statusNumber : Status → Byte
  | .ok => 0
  | .error c => errorNumber c

/-- The status with a number, where there is one: a closed enumeration, 0 to 6 (R16, R230). -/
def statusOfNumber (b : Byte) : Option Status :=
  match b.toNat with
  | 0 => some .ok
  | 1 => some (.error .invalidType)
  | 2 => some (.error .invalidAddress)
  | 3 => some (.error .invalidValue)
  | 4 => some (.error .lowLevelError)
  | 5 => some (.error .readOnly)
  | 6 => some (.error .invalidLength)
  | _ => none

end Sys2Proof.Machine
end

