-- ==== Sys2Proof/Config.lean ====
section
/-! DEFINITION. What an implementation or the host fixes for the block (R10), what its collaborators answer (R250, R251),
and the free values of the model. Every `opaque` here is a value that nothing in the model decides. -/

namespace Sys2Proof

/-- How a collaborator behaved during its call, apart from its answer (R250, R251, R285 (a), (f), (g)). -/
inductive Conduct where
  /-- It kept the duties of R250 and R251. -/
  | proper
  /-- It invoked the block during its call (R280). -/
  | reentersBlock
  /-- It touched a buffer that it may not touch: a provider any of IN, OUT, EOUT; a handler IN. -/
  | touchesBuffer
  deriving DecidableEq, Repr, Inhabited

/-- What `romRead` answers: a raw status, which only a proper provider keeps in 0 to 6, and a value (R250). -/
structure ReadAnswer where
  status : Byte
  value : Value
  conduct : Conduct
  deriving DecidableEq, Repr, Inhabited

/-- What `romWrite` answers (R250). -/
structure WriteAnswer where
  status : Byte
  conduct : Conduct
  deriving DecidableEq, Repr, Inhabited

/-- What a delegated handler does (R251): its raw status, its byte count k, and its stores to the output buffer, each an
offset and a byte, in the order in which it made them. -/
structure HandlerAnswer where
  status : Byte
  written : Nat
  stores : List Host.Cell
  conduct : Conduct
  deriving DecidableEq, Repr, Inhabited

/-- One call the block made to a collaborator, with the reference it called, its operands and the answer (R60, R250). -/
inductive CallEvent where
  | read (ref : Option Ref) (a : Addr) (answer : ReadAnswer)
  | write (ref : Option Ref) (a : Addr) (v : Value) (answer : WriteAnswer)
  | firmware (ref : Option Ref) (packet : List Byte) (answer : HandlerAnswer)
  | command (ref : Option Ref) (packet : List Byte) (answer : HandlerAnswer)
  deriving DecidableEq, Repr

/-- The values PAIR_EVENT_TAG may have: bit 7 clear and none of the seven tags in use (R10, D5). -/
def legalPairTag (t : Byte) : Bool :=
  !t.getLsbD 7 && !([0x03, 0x06, 0x07, 0x10, 0x20, 0x27, 0x29] : List Byte).contains t

/-- The parameters the source leaves open (R10): CAP, MAXLEN and PAIR_EVENT_TAG, with the constraints R10 puts on them. -/
structure Config where
  cap : { n : Nat // 7 ≤ n }
  maxLen : Nat
  pairEventTag : { t : Byte // legalPairTag t = true }
  deriving DecidableEq, Repr

/-- CAP less 7: no value is given (R10, D3). -/
opaque Config.capAbove7 : Nat

/-- MAXLEN: no value is given (R10, D4). -/
opaque Config.anyMaxLen : Nat

/-- The choice of PAIR_EVENT_TAG: no value is given (R10, D5). -/
opaque Config.anyPairTag : Byte

/-- The configuration of the machine that `State.reset` describes: any legal one. -/
def Config.anyLegal : Config where
  cap := ⟨Config.capAbove7 + 7, Nat.le_add_left 7 _⟩
  maxLen := Config.anyMaxLen
  pairEventTag :=
    ⟨if legalPairTag Config.anyPairTag then Config.anyPairTag else 0x01, by
      by_cases h : legalPairTag Config.anyPairTag = true
      · simp [h]
      · simp only [h]
        decide⟩

/-- The n-th value that the spec calls `unspecified` (R15, U20, U21). -/
opaque Config.freeWord : Nat → Word

/-- `romRead` as an oracle: any answer, from the reference, the calls so far and the address (R250). -/
opaque Config.romRead : Option Ref → List CallEvent → Addr → ReadAnswer

/-- `romWrite` as an oracle (R250). -/
opaque Config.romWrite : Option Ref → List CallEvent → Addr → Value → WriteAnswer

/-- `firmwareHandler` as an oracle of the calls so far, the packet and the contents of OUT (R251). -/
opaque Config.firmwareHandler : Option Ref → List CallEvent → List Byte → List Host.Cell → HandlerAnswer

/-- `commandHandler` as an oracle of the calls so far, the packet and the contents of OUT (R251). -/
opaque Config.commandHandler : Option Ref → List CallEvent → List Byte → List Host.Cell → HandlerAnswer

end Sys2Proof
end

