-- ==== Sys2Proof/Syntax.lean ====
section
/-! DEFINITION. The operations of the block: one constructor for each row of the tag and operation table. -/

namespace Sys2Proof

/-- The nine host operations, the two internal sub-operations (R5), the seven request handlers of PARSE and its
error-response encoder, each with the operands its rule gives it. A request handler carries its packet: the tag is the
constructor's, the rest is a `Body`. -/
inductive Instr where
  /-- RDM, ReadMultiple, tag 0x03 (R113). -/
  | rdm (b : Body RdmFields)
  /-- WRM, WriteMultiple, tag 0x10 (R114). -/
  | wrm (b : Body WrmFields)
  /-- RDS, ReadSingle, tag 0x07 (R115). -/
  | rds (b : Body Addr)
  /-- WRS, WriteSingle, tag 0x06 (R116). -/
  | wrs (b : Body WrsFields)
  /-- FWU, FirmwareUpdate, tag 0x29; its one field is the opaque body (R117). -/
  | fwu (b : Body (List Byte))
  /-- CTL, Control, tag 0x27; its one field is the opaque body (R118). -/
  | ctl (b : Body (List Byte))
  /-- UNK, a packet whose tag is none of the six (R119). -/
  | unk (tag : Byte) (rest : List Byte)
  /-- ERR, the error-response encoder, with in[0] and the code (R112). -/
  | err (tag : Byte) (code : ErrorCode)
  /-- ENC_EVENT (R172). -/
  | encEvent (eventId payload : Half)
  /-- ENC_START; resetCount is a signed 32-bit number (R171). -/
  | encStart (resetCount : Word)
  /-- ENC_PAIR (R173). -/
  | encPair (parameterId : Byte) (value : Word) (diff : Half)
  /-- ENC_SHORT (R176). -/
  | encShort (payload : Word) (parameterNumber : Byte) (schedule : Half) (packed : Word)
  /-- PARSE, with IN_VALID and len; the bytes stand in IN, the response goes to OUT (R110). -/
  | parse (inValid : Bool) (len : Nat)
  /-- REGISTER, with four references, each present or absent (R156). -/
  | register (romRead romWrite fw cmd : Option Ref)
  /-- ADAPT_READ, with BUF_VALID and the address (R151). -/
  | adaptRead (bufValid : Bool) (a : Addr)
  /-- ADAPT_WRITE, with BUF_VALID, the address and the value (R152). -/
  | adaptWrite (bufValid : Bool) (a : Addr) (v : Value)
  /-- APC_DECODE (R190). -/
  | apcDecode (packed : Word)
  /-- SCH_POLL (R200). -/
  | schPoll (hour minute : Byte) (schedule : Half)
  /-- PSCH_POLL (R210). -/
  | pschPoll (hour minute second : Byte) (schedule : Half)
  deriving DecidableEq, Repr

/-- The operations offered to the host (R5). The handlers and ERR run inside PARSE; ADAPT_READ and ADAPT_WRITE run inside
PARSE and ENC_SHORT. -/
def Instr.offeredToHost : Instr → Bool
  | .rdm _ => false
  | .wrm _ => false
  | .rds _ => false
  | .wrs _ => false
  | .fwu _ => false
  | .ctl _ => false
  | .unk _ _ => false
  | .err _ _ => false
  | .encEvent _ _ => true
  | .encStart _ => true
  | .encPair _ _ _ => true
  | .encShort _ _ _ _ => true
  | .parse _ _ => true
  | .register _ _ _ _ => true
  | .adaptRead _ _ => false
  | .adaptWrite _ _ _ => false
  | .apcDecode _ => true
  | .schPoll _ _ _ => true
  | .pschPoll _ _ _ _ => true

/-- A host operation: an operation offered to the host. -/
abbrev HostOp := { i : Instr // i.offeredToHost = true }

end Sys2Proof
end

