-- ==== Sys2Proof/Machine/State.lean ====
section
/-! DEFINITION. The block's state (R20), the three byte spaces of the host that its operations reach (R50), what the host and
the collaborators have yet to present, and what an operation gave back. -/

namespace Sys2Proof.Machine

/-- One byte space: the offsets whose byte is known, rising, each with its byte. -/
abbrev Memory := List Host.Cell

/-- How many bytes an output buffer holds: all that its operation may need (R52, R53: the host's duty kept), or this many. -/
inductive Room where
  | asRequired
  | bytes (n : Nat)
  deriving DecidableEq, Repr

/-- An output buffer, OUT or EOUT. -/
structure Buffer where
  room : Room
  cells : Memory
  deriving DecidableEq, Repr

/-- REG, the registration slot: three presence bits and four references (R23). -/
structure Reg where
  /-- REG.PROV_VALID -/
  provValid : Bool
  /-- REG.FW_VALID -/
  fwValid : Bool
  /-- REG.CMD_VALID -/
  cmdValid : Bool
  /-- REG.romRead; `none` is the spec's "unbound" (R30). -/
  romRead : Option Ref
  /-- REG.romWrite -/
  romWrite : Option Ref
  /-- REG.fw -/
  fw : Option Ref
  /-- REG.cmd -/
  cmd : Option Ref
  deriving DecidableEq, Repr

/-- SCH's state (R25). -/
structure Sch where
  /-- SCH.LATCH -/
  latch : Bool
  deriving DecidableEq, Repr

/-- PSCH's state (R26 to R28). -/
structure Psch where
  /-- PSCH.NEXT, seconds since midnight -/
  next : BitVec 32
  /-- PSCH.WAIT -/
  wait : Bool
  /-- PSCH.LASTHOUR -/
  lastHour : BitVec 8
  deriving DecidableEq, Repr

/-- What the last operation gave back to the host (R6, R286). -/
inductive Result where
  /-- Nothing yet: no operation has returned since reset. -/
  | nothing
  /-- n, of PARSE, its handlers and the encoders. -/
  | length (n : Nat)
  /-- ok, of REGISTER. -/
  | registered (ok : Bool)
  /-- fire, of a scheduler poll. -/
  | fire (f : Bool)
  /-- The list of APC_DECODE. -/
  | addresses (l : List SixBit)
  /-- (st, v), of ADAPT_READ. -/
  | read (st : Status) (v : Value)
  /-- st, of ADAPT_WRITE. -/
  | write (st : Status)
  deriving DecidableEq, Repr

/-- An output buffer as the host hands it over: its room, and the bytes the host tells of, from offset 0. -/
structure HandedBuffer where
  room : Room
  bytes : List Byte
  deriving DecidableEq, Repr

/-- One operation the host invokes, with the buffers it hands over with it (R286). A buffer that is not handed over is the
one handed over before. -/
structure HostCall where
  op : HostOp
  /-- The host starts the operation before the one before it has returned (R280). -/
  overlapping : Bool := false
  /-- The host hands over IN and OUT that overlap (R63). -/
  inOutOverlap : Bool := false
  /-- The readable bytes of IN. -/
  input : Option (List Byte) := none
  /-- OUT. -/
  output : Option HandedBuffer := none
  /-- EOUT. -/
  eout : Option HandedBuffer := none
  deriving DecidableEq, Repr

/-- The state. `reg`, `sch` and `psch` are the block's five state elements (R20); everything else is the configuration (R10),
the buffers of the host (R50), or what its environment has yet to present or has been given. -/
structure State where
  /-- CAP, MAXLEN and PAIR_EVENT_TAG (R10); no operation changes them. -/
  cfg : Config
  reg : Reg
  sch : Sch
  psch : Psch
  /-- IN. -/
  input : Memory
  /-- OUT. -/
  out : Buffer
  /-- EOUT. -/
  eout : Buffer
  /-- IN and OUT, as handed over, overlap (R63). -/
  inOutOverlap : Bool
  /-- What the last operation gave back. -/
  result : Result
  /-- The operations the host has yet to invoke, first one first. -/
  pending : List HostCall
  /-- The answers `romRead` will give next; when there is none, the oracle of Config answers. -/
  readAnswers : List ReadAnswer
  /-- The answers `romWrite` will give next. -/
  writeAnswers : List WriteAnswer
  /-- The answers `firmwareHandler` will give next. -/
  firmwareAnswers : List HandlerAnswer
  /-- The answers `commandHandler` will give next. -/
  commandAnswers : List HandlerAnswer
  /-- Every call to a collaborator so far, oldest first (R60). -/
  history : List CallEvent
  /-- How many free words have been used. -/
  freeCount : Nat
  deriving DecidableEq, Repr

/-- No step of the block faults: "Never faults on malformed input" (R111), and what the spec gives no meaning is a refusal
(R15, R285). The type has no constructor. -/
inductive Fault where
  deriving DecidableEq, Repr

/-- Why an operation instance has no meaning (R15, R285). Every one is safe: nothing is said of what follows it. -/
inductive Refusal where
  /-- Raised by `exec` for an instruction without a meaning; no arm raises it. Safe. -/
  | notModelled (mnemonic : String)
  /-- Raised by `step`: the host's next operation starts before the previous one has returned, or the one after it starts before
  it has returned (R285 (a), R255, R280). Safe. -/
  | overlappingOperations
  /-- Raised by a call to a provider or handler that invokes the block (R285 (a), R280). Safe. -/
  | blockReentered
  /-- Raised by PARSE, its handlers and ERR: IN and OUT overlap (R285 (b), R63). Safe. -/
  | inOutOverlap
  /-- Raised by PARSE, its handlers and ERR: OUT holds fewer than CAP bytes (R285 (c), R52). Safe. -/
  | outTooSmall
  /-- Raised by an encoder: EOUT holds fewer bytes than the encoder's minimum (R285 (c), R53). Safe. -/
  | eoutTooSmall
  /-- Raised by a provider call while PROV_VALID = 0 (R285 (d), R159). Safe. -/
  | providerNotRegistered
  /-- Raised by a provider or handler call whose status is outside 0 to 6 (R285 (e), R230). Safe. -/
  | statusOutOfRange
  /-- Raised by a handler call that reports more than CAP bytes (R285 (f), R251). Safe. -/
  | handlerLengthOverCap
  /-- Raised by a handler call that stores outside OUT (R285 (f), R251). Safe. -/
  | handlerStoreOutsideOut
  /-- Raised by a handler call that touches IN (R285 (f), R251). Safe. -/
  | handlerTouchesIn
  /-- Raised by a provider call that touches IN, OUT or EOUT (R285 (g), R250). Safe. -/
  | providerTouchesBuffer
  /-- Raised by ENC_SHORT when a read of an additional parameter fails (R285 (h), R176). Safe. -/
  | additionalReadFailed
  /-- Raised by SCH_POLL with a schedule outside 1 to 1440 (R285 (i), R203). Safe. -/
  | schScheduleOutOfRange
  /-- Raised by PSCH_POLL with schedule 0 (R285 (j), R215). Safe. -/
  | pschScheduleZero
  /-- Raised by a poll with a time outside the calendar ranges (R285 (k), R218). Safe. -/
  | timeOutOfRange
  /-- Raised by PARSE and its handlers: len is over MAXLEN (R285 (l), R51). Safe. -/
  | inputTooLong
  /-- Raised by PARSE: IN has fewer than len readable bytes (R285 (l), R51). Safe. -/
  | inputUnreadable
  deriving DecidableEq, Repr

/-- The machine right after reset (R30, R270): nothing registered, both schedulers at 0, no buffer handed over (R271), no
operation invoked, and a legal configuration. -/
def State.reset : State where
  cfg := Config.anyLegal
  reg :=
    { provValid := false, fwValid := false, cmdValid := false,
      romRead := none, romWrite := none, fw := none, cmd := none }
  sch := { latch := false }
  psch := { next := 0, wait := false, lastHour := 0 }
  input := []
  out := { room := .bytes 0, cells := [] }
  eout := { room := .bytes 0, cells := [] }
  inOutOverlap := false
  result := .nothing
  pending := []
  readAnswers := []
  writeAnswers := []
  firmwareAnswers := []
  commandAnswers := []
  history := []
  freeCount := 0

end Sys2Proof.Machine
end

