-- ==== Sys2Proof/Machine/Ops.lean ====
section
/-! DEFINITION. The operations the meanings share: bytes of the three spaces, calls to the collaborators, the adapter, and
the error path of PARSE (R235), which is the block's one exceptional mechanism. There is no return from it (R236): the next
operation starts from the state it leaves. -/

namespace Sys2Proof.Machine

/-- What an offset reads as while nothing has told its byte: no value. -/
def Memory.unlisted : Option Byte := none

/-- The byte at an offset. -/
def Memory.read : Memory → Nat → Option Byte
  | [], _ => Memory.unlisted
  | (k, b) :: m, a => if a = k then some b else Memory.read m a

/-- Store one byte. -/
def Memory.write : Memory → Nat → Byte → Memory
  | [], a, b => [(a, b)]
  | (k, c) :: m, a, b =>
    if a < k then (a, b) :: (k, c) :: m
    else if a = k then (a, b) :: m
    else (k, c) :: Memory.write m a b

/-- Store a byte sequence at ascending offsets (R14). -/
def Memory.writeBytes : Memory → Nat → List Byte → Memory
  | m, _, [] => m
  | m, a, b :: bs => Memory.writeBytes (Memory.write m a b) (a + 1) bs

/-- Store single bytes, each at an offset of its own, in the order given. -/
def Memory.writeCells : Memory → List Host.Cell → Memory
  | m, [] => m
  | m, (a, b) :: more => Memory.writeCells (Memory.write m a b) more

/-- The n bytes from an offset on, where every one of them has a value. -/
def Memory.readRange : Memory → Nat → Nat → Option (List Byte)
  | _, _, 0 => some []
  | m, a, n + 1 =>
    match Memory.read m a with
    | none => none
    | some b =>
      match Memory.readRange m (a + 1) n with
      | none => none
      | some bs => some (b :: bs)

/-- Every offset listed is greater than k, and they rise strictly. -/
def Memory.risesAbove : Nat → Memory → Bool
  | _, [] => true
  | k, (a, _) :: m => decide (k < a) && Memory.risesAbove a m

/-- The canonical form: offsets strictly rising. An unlisted offset reads as no value, so no entry can equal what it would
read as if it were not listed. -/
def Memory.wf : Memory → Bool
  | [] => true
  | (a, _) :: m => Memory.risesAbove a m

/-- The memory that holds a byte sequence from offset 0. -/
def Memory.ofBytes (bs : List Byte) : Memory := Memory.writeBytes [] 0 bs

/-- The buffer holds at least this many bytes. -/
def Room.holds : Room → Nat → Bool
  | .asRequired, _ => true
  | .bytes n, need => decide (need ≤ n)

/-- The bytes of a handed-over buffer that lie inside it. -/
def HandedBuffer.inside (h : HandedBuffer) : List Byte :=
  match h.room with
  | .asRequired => h.bytes
  | .bytes n => h.bytes.take n

/-- The buffer as the host hands it over. -/
def HandedBuffer.toBuffer (h : HandedBuffer) : Buffer := { room := h.room, cells := Memory.ofBytes h.inside }

/-- `out[i..] <- bs` (R14). -/
def State.writeOut (s : State) (i : Nat) (bs : List Byte) : State :=
  { s with out := { s.out with cells := s.out.cells.writeBytes i bs } }

/-- A handler's stores to OUT (R251). -/
def State.storeOut (s : State) (stores : List Host.Cell) : State :=
  { s with out := { s.out with cells := s.out.cells.writeCells stores } }

/-- `eout[i..] <- bs` (R14). -/
def State.writeEout (s : State) (i : Nat) (bs : List Byte) : State :=
  { s with eout := { s.eout with cells := s.eout.cells.writeBytes i bs } }

/-- The operation ends and gives its result back (R287). -/
def State.returns (s : State) (r : Result) : State := { s with result := r }

/-- The free word that the next `unspecified` value takes (R15). -/
def State.freeValue (s : State) : Word := Config.freeWord s.freeCount

/-- That free word is used up. -/
def State.useFree (s : State) : State := { s with freeCount := s.freeCount + 1 }

/-- What `romRead` answers to a read of a (R250). -/
def State.readAnswer (s : State) (a : Addr) : ReadAnswer :=
  match s.readAnswers with
  | ans :: _ => ans
  | [] => Config.romRead s.reg.romRead s.history a

/-- The state once `romRead` has answered. -/
def State.afterRead (s : State) (a : Addr) : State :=
  { s with
    readAnswers := s.readAnswers.tail
    history := s.history ++ [.read s.reg.romRead a (s.readAnswer a)] }

/-- What `romWrite` answers to a write of v at a (R250). -/
def State.writeAnswer (s : State) (a : Addr) (v : Value) : WriteAnswer :=
  match s.writeAnswers with
  | ans :: _ => ans
  | [] => Config.romWrite s.reg.romWrite s.history a v

/-- The state once `romWrite` has answered. -/
def State.afterWrite (s : State) (a : Addr) (v : Value) : State :=
  { s with
    writeAnswers := s.writeAnswers.tail
    history := s.history ++ [.write s.reg.romWrite a v (s.writeAnswer a v)] }

/-- What `firmwareHandler` answers to a packet (R251). -/
def State.firmwareAnswer (s : State) (packet : List Byte) : HandlerAnswer :=
  match s.firmwareAnswers with
  | ans :: _ => ans
  | [] => Config.firmwareHandler s.reg.fw s.history packet s.out.cells

/-- The state once `firmwareHandler` has answered, its stores to OUT made. -/
def State.afterFirmware (s : State) (packet : List Byte) : State :=
  { s.storeOut (s.firmwareAnswer packet).stores with
    firmwareAnswers := s.firmwareAnswers.tail
    history := s.history ++ [.firmware s.reg.fw packet (s.firmwareAnswer packet)] }

/-- What `commandHandler` answers to a packet (R251). -/
def State.commandAnswer (s : State) (packet : List Byte) : HandlerAnswer :=
  match s.commandAnswers with
  | ans :: _ => ans
  | [] => Config.commandHandler s.reg.cmd s.history packet s.out.cells

/-- The state once `commandHandler` has answered, its stores to OUT made. -/
def State.afterCommand (s : State) (packet : List Byte) : State :=
  { s.storeOut (s.commandAnswer packet).stores with
    commandAnswers := s.commandAnswers.tail
    history := s.history ++ [.command s.reg.cmd packet (s.commandAnswer packet)] }

/-- The status of a provider's answer, or the duty it broke (R250, R285 (a), (e), (g)). -/
def providerStatus (status : Byte) (conduct : Conduct) : Except Refusal Status :=
  match conduct with
  | .reentersBlock => .error .blockReentered
  | .touchesBuffer => .error .providerTouchesBuffer
  | .proper =>
    match statusOfNumber status with
    | none => .error .statusOutOfRange
    | some st => .ok st

/-- The status of a handler's answer, or the duty it broke (R251, R285 (a), (e), (f)). -/
def handlerStatus (cap : Nat) (ans : HandlerAnswer) : Except Refusal Status :=
  match ans.conduct with
  | .reentersBlock => .error .blockReentered
  | .touchesBuffer => .error .handlerTouchesIn
  | .proper =>
    if ans.stores.any (fun c => decide (cap ≤ c.1)) then .error .handlerStoreOutsideOut
    else if cap < ans.written then .error .handlerLengthOverCap
    else
      match statusOfNumber ans.status with
      | none => .error .statusOutOfRange
      | some st => .ok st

/-- ADAPT_READ (R151): a status, a value (a free word where the rule says `unspecified`) and the state after. -/
def adapterRead (bufValid : Bool) (a : Addr) (s : State) : Except Refusal (Status × Value × State) :=
  if bufValid = false then .ok (.error .invalidAddress, s.freeValue, s.useFree)
  else if s.reg.provValid = false then .error .providerNotRegistered
  else
    match providerStatus (s.readAnswer a).status (s.readAnswer a).conduct with
    | .error r => .error r
    | .ok .ok => .ok (.ok, (s.readAnswer a).value, s.afterRead a)
    | .ok (.error c) => .ok (.error c, s.freeValue, (s.afterRead a).useFree)

/-- ADAPT_WRITE (R152): a status and the state after. -/
def adapterWrite (bufValid : Bool) (a : Addr) (v : Value) (s : State) : Except Refusal (Status × State) :=
  if bufValid = false then .ok (.error .invalidAddress, s)
  else if s.reg.provValid = false then .error .providerNotRegistered
  else
    match providerStatus (s.writeAnswer a v).status (s.writeAnswer a v).conduct with
    | .error r => .error r
    | .ok st => .ok (st, s.afterWrite a v)

/-- How a request handler ends (R15): `return n`, or `raise Error(c)`. -/
inductive Ending where
  | ret (n : Nat)
  | raise (c : ErrorCode)
  deriving DecidableEq, Repr

/-- ERR, the error entry (R112, R235): out[0] and out[1] are written, and PARSE returns 2. Nothing is saved and nothing else
changes. -/
def raiseError (tag : Byte) (c : ErrorCode) (s : State) : State :=
  (s.writeOut 0 [errorTag tag, errorNumber c]).returns (.length 2)

/-- The end of a request handler (R110, R112). -/
def finish (tag : Byte) (s : State) : Ending → State
  | .ret n => s.returns (.length n)
  | .raise c => raiseError tag c s

/-- The host's duty that a PARSE with a packet of this length breaks, if it breaks one (R285 (b), (c), (l)). -/
def parseDuty (s : State) (len : Nat) : Option Refusal :=
  if s.inOutOverlap then some .inOutOverlap
  else if s.out.room.holds s.cfg.cap.val = false then some .outTooSmall
  else if s.cfg.maxLen < len then some .inputTooLong
  else none

/-- A request handler: the host's duties, the handler's own steps, and its end. -/
def serve (tag : Byte) (len : Nat) (steps : State → Except Refusal (Ending × State)) (s : State) :
    Host.Outcome State Fault Refusal :=
  match parseDuty s len with
  | some r => .refused r
  | none =>
    match steps s with
    | .error r => .refused r
    | .ok (e, t) => .next (finish tag t e)

/-- An encoder with EOUT at least its minimum (R53, R170): the message at offset 0, and its length given back. -/
def emit (message : List Byte) (s : State) : Host.Outcome State Fault Refusal :=
  if s.eout.room.holds message.length = false then .refused .eoutTooSmall
  else .next ((s.writeEout 0 message).returns (.length message.length))

/-- The reads of RDM (R113), n of them from index i on: each value is put in its slot; the first failing read ends them, its
slot holding a free word. -/
def readBlock (start : Addr) : Nat → Nat → State → Except Refusal (Option ErrorCode × State)
  | 0, _, s => .ok (none, s)
  | n + 1, i, s =>
    match adapterRead true (addrAt start i) s with
    | .error r => .error r
    | .ok (.ok, v, t) => readBlock start n (i + 1) (t.writeOut (multiLength i) (be32 v))
    | .ok (.error c, v, t) => .ok (some c, t.writeOut (multiLength i) (be32 v))

/-- The writes of WRM (R114), from index i on; the first failing write ends them. -/
def writeBlock (start : Addr) : List Value → Nat → State → Except Refusal (Option ErrorCode × State)
  | [], _, s => .ok (none, s)
  | v :: more, i, s =>
    match adapterWrite true (addrAt start i) v s with
    | .error r => .error r
    | .ok (.ok, t) => writeBlock start more (i + 1) t
    | .ok (.error c, t) => .ok (some c, t)

/-- The additional-parameter blocks of ENC_SHORT (R176), the next one at offset n; the result is the offset after the last.
A failing read has no meaning (R285 (h)). -/
def emitBlocks : List SixBit → Nat → State → Except Refusal (Nat × State)
  | [], n, s => .ok (n, s)
  | a :: more, n, s =>
    match adapterRead true (additionalAddr a) s with
    | .error r => .error r
    | .ok (.error _, _, _) => .error .additionalReadFailed
    | .ok (.ok, v, t) => emitBlocks more (n + 5) (t.writeEout n (additionalBlock a v))

/-- The call of `firmwareHandler` (R117, R251), and how FWU ends after it. -/
def callFirmware (packet : List Byte) (s : State) : Except Refusal (Ending × State) :=
  match handlerStatus s.cfg.cap.val (s.firmwareAnswer packet) with
  | .error r => .error r
  | .ok .ok => .ok (.ret (s.firmwareAnswer packet).written, s.afterFirmware packet)
  | .ok (.error c) => .ok (.raise c, s.afterFirmware packet)

/-- The call of `commandHandler` (R118, R251), and how CTL ends after it. -/
def callCommand (packet : List Byte) (s : State) : Except Refusal (Ending × State) :=
  match handlerStatus s.cfg.cap.val (s.commandAnswer packet) with
  | .error r => .error r
  | .ok .ok => .ok (.ret (s.commandAnswer packet).written, s.afterCommand packet)
  | .ok (.error c) => .ok (.raise c, s.afterCommand packet)

/-- How a multi-parameter handler ends: with this length, or with the failing sub-step's status. -/
def endOfBlock (n : Nat) (p : Option ErrorCode × State) : Ending × State :=
  match p with
  | (none, t) => (.ret n, t)
  | (some c, t) => (.raise c, t)

/-- How a single-parameter handler ends. -/
def endOfStatus (n : Nat) : Status → Ending
  | .ok => .ret n
  | .error c => .raise c

/-- The host's next operation overlaps another one in time: it starts before the one before it has returned, or the one after it
starts before it has returned (R280). Neither of two overlapping operations has a meaning (R255, R285 (a)). -/
def overlapped (c : HostCall) (rest : List HostCall) : Bool :=
  c.overlapping ||
    match rest with
    | [] => false
    | d :: _ => d.overlapping

/-- The host's calls when the first of them waits for the operation before it to return (R280). -/
def serialised : List HostCall → List HostCall
  | [] => []
  | c :: rest => { c with overlapping := false } :: rest

/-- The host hands over the buffers of its next operation (R286). -/
def State.accept (s : State) (c : HostCall) (rest : List HostCall) : State :=
  { s with
    input := match c.input with
      | some bs => Memory.ofBytes bs
      | none => s.input
    out := match c.output with
      | some h => h.toBuffer
      | none => s.out
    eout := match c.eout with
      | some h => h.toBuffer
      | none => s.eout
    inOutOverlap := c.inOutOverlap
    pending := rest }

end Sys2Proof.Machine
end

