-- ==== Sys2Proof/Machine/Adapter.lean ====
section
/-! DEFINITION. The ParameterStore adapter's two operations and the registration slot (R151, R152, R156). -/

namespace Sys2Proof.Machine

/-- ADAPT_READ (R151). -/
def execAdaptRead (bufValid : Bool) (a : Addr) (s : State) : Host.Outcome State Fault Refusal :=
  match adapterRead bufValid a s with
  | .error r => .refused r
  | .ok (st, v, t) => .next (t.returns (.read st v))

/-- ADAPT_WRITE (R152). -/
def execAdaptWrite (bufValid : Bool) (a : Addr) (v : Value) (s : State) : Host.Outcome State Fault Refusal :=
  match adapterWrite bufValid a v s with
  | .error r => .refused r
  | .ok (st, t) => .next (t.returns (.write st))

/-- REGISTER (R156): the slot is written as a whole, and only when both provider primitives are there. -/
def execRegister (romRead romWrite fw cmd : Option Ref) (s : State) : Host.Outcome State Fault Refusal :=
  if romRead.isSome && romWrite.isSome then
    .next ({ s with
      reg :=
        { provValid := true, fwValid := fw.isSome, cmdValid := cmd.isSome,
          romRead := romRead, romWrite := romWrite, fw := fw, cmd := cmd } }.returns (.registered true))
  else .next (s.returns (.registered false))

end Sys2Proof.Machine
end

