-- ==== Sys2Proof/WellFormed.lean ====
section
/-! DEFINITION. Which terms of `Instr` stand for an operation the spec describes: a packet is in one shape only, and an
operand is in the range its rule gives. -/

namespace Sys2Proof

/-- A body of fixed length n after the tag: a `badLength` one has another length. -/
def Body.fixedLength {α : Type} (n : Nat) : Body α → Bool
  | .valid _ => true
  | .badLength rest => rest.length != n

/-- The bytes after a WRM tag have the valid length: at least the four of start and count, then 4·count (R82, R94). -/
def wrmLengthValid (rest : List Byte) : Bool :=
  match rest with
  | _ :: _ :: c1 :: c0 :: values => values.length == 4 * (Machine.u16 c1 c0).toNat
  | _ => false

/-- A term that stands for an operation of the spec, with every operand in its range. -/
def Instr.wellFormed : Instr → Bool
  | .rdm b => b.fixedLength 4
  | .wrm (.valid f) => decide (f.values.length < 65536)
  | .wrm (.badLength rest) => !wrmLengthValid rest
  | .rds b => b.fixedLength 2
  | .wrs b => b.fixedLength 6
  | .fwu (.valid body) => body != []
  | .fwu (.badLength rest) => rest == []
  | .ctl (.valid body) => body.length == 6
  | .ctl (.badLength rest) => rest.length != 6
  | .unk tag _ => Machine.classify tag == .unk
  | .err _ _ => true
  | .encEvent _ _ => true
  | .encStart _ => true
  | .encPair _ _ _ => true
  | .encShort _ _ _ _ => true
  | .parse _ _ => true
  | .register _ _ _ _ => true
  | .adaptRead _ _ => true
  | .adaptWrite _ _ _ => true
  | .apcDecode _ => true
  | .schPoll hour minute schedule =>
    Machine.calendarTime hour minute 0 && decide (1 ≤ schedule.toNat ∧ schedule.toNat ≤ 1440)
  | .pschPoll hour minute second schedule =>
    Machine.calendarTime hour minute second && decide (1 ≤ schedule.toNat)

end Sys2Proof
end

