-- ==== Sys2Proof/Decode.lean ====
section
/-! DEFINITION. The decoder of inbound packets (R82, R91, R94), total on any bytes, and after it the encoder of requests
(R95). -/

namespace Sys2Proof

open Machine

/-- Why a byte sequence is no packet. -/
inductive DecodeError where
  /-- There is no tag byte (R110): PARSE answers such an input with result 0. -/
  | emptyPacket
  deriving DecidableEq, Repr

/-- RDM: start and count, exactly four bytes after the tag (R82). -/
def rdmBody (rest : List Byte) : Body RdmFields :=
  match rest with
  | [s1, s0, c1, c0] => .valid ⟨u16 s1 s0, u16 c1 c0⟩
  | _ => .badLength rest

/-- The values in the bytes after a WRM header, four bytes each (R90). -/
def wrmValues : List Byte → List Value
  | b0 :: b1 :: b2 :: b3 :: more => s32 b0 b1 b2 b3 :: wrmValues more
  | _ => []

/-- WRM: start, count and exactly count values; the count is read only when its bytes are there (R94, R114). -/
def wrmBody (rest : List Byte) : Body WrmFields :=
  match rest with
  | s1 :: s0 :: c1 :: c0 :: values =>
    if values.length = 4 * (u16 c1 c0).toNat then .valid ⟨u16 s1 s0, wrmValues values⟩ else .badLength rest
  | _ => .badLength rest

/-- RDS: the address, exactly two bytes after the tag (R82). -/
def rdsBody (rest : List Byte) : Body Addr :=
  match rest with
  | [a1, a0] => .valid (u16 a1 a0)
  | _ => .badLength rest

/-- WRS: the address and the value, exactly six bytes after the tag (R82). -/
def wrsBody (rest : List Byte) : Body WrsFields :=
  match rest with
  | [a1, a0, b0, b1, b2, b3] => .valid ⟨u16 a1 a0, s32 b0 b1 b2 b3⟩
  | _ => .badLength rest

/-- FWU: at least one byte after the tag (R82). -/
def fwuBody (rest : List Byte) : Body (List Byte) :=
  match rest with
  | [] => .badLength []
  | _ :: _ => .valid rest

/-- CTL: exactly six bytes after the tag (R82). -/
def ctlBody (rest : List Byte) : Body (List Byte) :=
  if rest.length = 6 then .valid rest else .badLength rest

/-- The handler instance that a packet asks for (R91). -/
def decodePacket (tag : Byte) (rest : List Byte) : Instr :=
  match classify tag with
  | .rdm => .rdm (rdmBody rest)
  | .wrm => .wrm (wrmBody rest)
  | .rds => .rds (rdsBody rest)
  | .wrs => .wrs (wrsBody rest)
  | .fwu => .fwu (fwuBody rest)
  | .ctl => .ctl (ctlBody rest)
  | .unk => .unk tag rest

/-- The decoder: every byte sequence with a tag is a packet of some handler. -/
def decode : List Byte → Except DecodeError Instr
  | [] => .error .emptyPacket
  | tag :: rest => .ok (decodePacket tag rest)

/-- The bytes after the tag of an RDM packet. -/
def encodeRdm : Body RdmFields → List Byte
  | .valid f => be16 f.start ++ be16 f.count
  | .badLength rest => rest

/-- The value bytes of a WRM packet. -/
def encodeValues : List Value → List Byte
  | [] => []
  | v :: more => be32 v ++ encodeValues more

/-- The bytes after the tag of a WRM packet. -/
def encodeWrm : Body WrmFields → List Byte
  | .valid f => be16 f.start ++ (be16 (BitVec.ofNat 16 f.values.length) ++ encodeValues f.values)
  | .badLength rest => rest

/-- The bytes after the tag of an RDS packet. -/
def encodeRds : Body Addr → List Byte
  | .valid a => be16 a
  | .badLength rest => rest

/-- The bytes after the tag of a WRS packet. -/
def encodeWrs : Body WrsFields → List Byte
  | .valid f => be16 f.addr ++ be32 f.value
  | .badLength rest => rest

/-- The bytes after the tag of an FWU or CTL packet. -/
def encodeOpaque : Body (List Byte) → List Byte
  | .valid body => body
  | .badLength rest => rest

/-- The encoder (R95): the packet of a request. ERR, the encoders and the operations of the host and of the adapter have no
inbound packet. -/
def encode : Instr → Option (List Byte)
  | .rdm b => some (0x03 :: encodeRdm b)
  | .wrm b => some (0x10 :: encodeWrm b)
  | .rds b => some (0x07 :: encodeRds b)
  | .wrs b => some (0x06 :: encodeWrs b)
  | .fwu b => some (0x29 :: encodeOpaque b)
  | .ctl b => some (0x27 :: encodeOpaque b)
  | .unk tag rest => some (tag :: rest)
  | .err _ _ => none
  | .encEvent _ _ => none
  | .encStart _ => none
  | .encPair _ _ _ => none
  | .encShort _ _ _ _ => none
  | .parse _ _ => none
  | .register _ _ _ _ => none
  | .adaptRead _ _ => none
  | .adaptWrite _ _ _ => none
  | .apcDecode _ => none
  | .schPoll _ _ _ => none
  | .pschPoll _ _ _ _ => none

/-- Byte i of a word numbered as the table numbers it: the first byte is the least significant. -/
def wordByte (w i : Nat) : Byte := BitVec.ofNat 8 (w / 256 ^ i)

/-- The least valid length of a packet with this tag and this WRM count (R94). -/
def leastLength (tag : Byte) (count : Nat) : Nat :=
  match classify tag with
  | .rdm => 5
  | .wrm => multiLength count
  | .rds => 3
  | .wrs => 7
  | .fwu => 2
  | .ctl => 7
  | .unk => 1

/-- The first n bytes of a word, lowest first. -/
def wordBytes (w : Nat) : Nat → List Byte
  | 0 => []
  | n + 1 => wordBytes w n ++ [wordByte w n]

/-- The packet whose bits are w: nbits of them, and zero bytes after them up to the length its tag requires. -/
def packetOfWord (nbits w : Nat) : List Byte :=
  let bits := w % 2 ^ nbits
  let count := (u16 (wordByte bits 3) (wordByte bits 4)).toNat
  wordBytes bits (max ((nbits + 7) / 8) (leastLength (wordByte bits 0) count))

/-- The instruction the decoder reads from the packet whose bits are w. -/
def decodeTableWord (nbits w : Nat) : Option Instr :=
  match decode (packetOfWord nbits w) with
  | .ok i => some i
  | .error _ => none

end Sys2Proof
end

