-- ==== Sys2Proof/Machine/Dispatcher.lean ====
section
/-! DEFINITION. The PacketDispatcher: the seven request handlers, the error-response encoder and PARSE (R110 to R119). A
handler takes its packet as its operand; the packet's bytes are those of `encode`. -/

namespace Sys2Proof.Machine

/-- RDM, ReadMultiple (R113). -/
def execRdm (b : Body RdmFields) (s : State) : Host.Outcome State Fault Refusal :=
  let packet := 0x03 :: encodeRdm b
  serve 0x03 packet.length (fun s =>
    match b with
    | .badLength _ => .ok (.raise .invalidLength, s)
    | .valid f =>
      if s.cfg.cap.val < multiLength f.count.toNat then .ok (.raise .invalidLength, s)
      else
        match readBlock f.start f.count.toNat 0 (s.writeOut 0 (packet.take 5)) with
        | .error r => .error r
        | .ok p => .ok (endOfBlock (multiLength f.count.toNat) p)) s

/-- WRM, WriteMultiple (R114). -/
def execWrm (b : Body WrmFields) (s : State) : Host.Outcome State Fault Refusal :=
  let packet := 0x10 :: encodeWrm b
  serve 0x10 packet.length (fun s =>
    match b with
    | .badLength _ => .ok (.raise .invalidLength, s)
    | .valid f =>
      match writeBlock f.start f.values 0 (s.writeOut 0 (packet.take 5)) with
      | .error r => .error r
      | .ok p => .ok (endOfBlock 5 p)) s

/-- RDS, ReadSingle (R115): the slot of a failing read holds a free word. -/
def execRds (b : Body Addr) (s : State) : Host.Outcome State Fault Refusal :=
  let packet := 0x07 :: encodeRds b
  serve 0x07 packet.length (fun s =>
    match b with
    | .badLength _ => .ok (.raise .invalidLength, s)
    | .valid a =>
      match adapterRead true a (s.writeOut 0 (packet.take 3)) with
      | .error r => .error r
      | .ok (st, v, t) => .ok (endOfStatus 7 st, t.writeOut 3 (be32 v))) s

/-- WRS, WriteSingle (R116): the whole packet is mirrored before the write. -/
def execWrs (b : Body WrsFields) (s : State) : Host.Outcome State Fault Refusal :=
  let packet := 0x06 :: encodeWrs b
  serve 0x06 packet.length (fun s =>
    match b with
    | .badLength _ => .ok (.raise .invalidLength, s)
    | .valid f =>
      match adapterWrite true f.addr f.value (s.writeOut 0 packet) with
      | .error r => .error r
      | .ok (st, t) => .ok (endOfStatus 7 st, t)) s

/-- FWU, FirmwareUpdate (R117): length first, then presence, then the handler. -/
def execFwu (b : Body (List Byte)) (s : State) : Host.Outcome State Fault Refusal :=
  let packet := 0x29 :: encodeOpaque b
  serve 0x29 packet.length (fun s =>
    match b with
    | .badLength _ => .ok (.raise .invalidLength, s)
    | .valid _ =>
      if s.reg.fwValid = false then .ok (.raise .invalidType, s)
      else callFirmware packet s) s

/-- CTL, Control (R118): length first, then presence, then the handler. -/
def execCtl (b : Body (List Byte)) (s : State) : Host.Outcome State Fault Refusal :=
  let packet := 0x27 :: encodeOpaque b
  serve 0x27 packet.length (fun s =>
    match b with
    | .badLength _ => .ok (.raise .invalidLength, s)
    | .valid _ =>
      if s.reg.cmdValid = false then .ok (.raise .invalidType, s)
      else callCommand packet s) s

/-- UNK, an unknown tag (R119): no length is checked. -/
def execUnk (tag : Byte) (rest : List Byte) (s : State) : Host.Outcome State Fault Refusal :=
  serve tag (tag :: rest).length (fun s => .ok (.raise .invalidType, s)) s

/-- ERR, the error-response encoder, for a packet with this tag (R112). -/
def execErr (tag : Byte) (code : ErrorCode) (s : State) : Host.Outcome State Fault Refusal :=
  serve tag 1 (fun s => .ok (.raise code, s)) s

/-- PARSE (R110): result 0 for absent or empty input, else the handler of the tag, on the packet in IN. -/
def execParse (inValid : Bool) (len : Nat) (s : State) : Host.Outcome State Fault Refusal :=
  match parseDuty s len with
  | some r => .refused r
  | none =>
    if inValid = false then .next (s.returns (.length 0))
    else
      match s.input.readRange 0 len with
      | none => .refused .inputUnreadable
      | some [] => .next (s.returns (.length 0))
      | some (tag :: rest) =>
        match classify tag with
        | .rdm => execRdm (rdmBody rest) s
        | .wrm => execWrm (wrmBody rest) s
        | .rds => execRds (rdsBody rest) s
        | .wrs => execWrs (wrsBody rest) s
        | .fwu => execFwu (fwuBody rest) s
        | .ctl => execCtl (ctlBody rest) s
        | .unk => execUnk tag rest s

end Sys2Proof.Machine
end

