-- ==== Sys2Proof/Machine/Encoders.lean ====
section
/-! DEFINITION. The four message encoders and the additional-parameter codec (R171 to R176, R190). -/

namespace Sys2Proof.Machine

/-- ENC_EVENT (R172). -/
def execEncEvent (eventId payload : Half) (s : State) : Host.Outcome State Fault Refusal :=
  emit (eventMessage eventId payload) s

/-- ENC_START (R171): the event with id 0 and the clamped, truncated count. -/
def execEncStart (resetCount : Word) (s : State) : Host.Outcome State Fault Refusal :=
  emit (eventMessage 0 (startPayload resetCount)) s

/-- ENC_PAIR (R173). -/
def execEncPair (parameterId : Byte) (value : Word) (diff : Half) (s : State) : Host.Outcome State Fault Refusal :=
  emit (pairMessage s.cfg.pairEventTag.val parameterId value diff) s

/-- ENC_SHORT (R176): EOUT holds 32 bytes by the host's duty (R53); a parameterNumber over 63 is rejected before any
write. -/
def execEncShort (payload : Word) (parameterNumber : Byte) (schedule : Half) (packed : Word) (s : State) :
    Host.Outcome State Fault Refusal :=
  if s.eout.room.holds 32 = false then .refused .eoutTooSmall
  else if 63 < parameterNumber.toNat then .next (s.returns (.length 0))
  else
    match emitBlocks (unpackAddresses packed) 7 (s.writeEout 0 (shortCore payload parameterNumber schedule)) with
    | .error r => .refused r
    | .ok (n, t) => .next (t.returns (.length n))

/-- APC_DECODE (R190). -/
def execApcDecode (packed : Word) (s : State) : Host.Outcome State Fault Refusal :=
  .next (s.returns (.addresses (unpackAddresses packed)))

end Sys2Proof.Machine
end

