-- ==== Sys2Proof/Machine/Schedulers.lean ====
section
/-! DEFINITION. The two scheduler predicates (R200, R210). -/

namespace Sys2Proof.Machine

/-- What one SCH poll does to the latch, and whether it fires (R200). -/
def schAdvance (hour minute : Byte) (schedule : Half) (sch : Sch) : Bool × Sch :=
  if minuteOfDay hour minute % minutePeriod schedule = 0 then
    if sch.latch = false then (true, { latch := true }) else (false, sch)
  else (false, { latch := false })

/-- SCH_POLL (R200, R203, R218). -/
def execSchPoll (hour minute : Byte) (schedule : Half) (s : State) : Host.Outcome State Fault Refusal :=
  if calendarTime hour minute 0 = false then .refused .timeOutOfRange
  else if schedule.toNat = 0 ∨ 1440 < schedule.toNat then .refused .schScheduleOutOfRange
  else
    let r := schAdvance hour minute schedule s.sch
    .next ({ s with sch := r.2 }.returns (.fire r.1))

/-- PSCH's first step: an hour below the last one clears WAIT, and the hour is kept (R210). -/
def pschObserveHour (hour : Byte) (p : Psch) : Psch :=
  { p with
    wait := if hour.toNat < p.lastHour.toNat then false else p.wait
    lastHour := hour }

/-- PSCH's second step: the fire test, and on a fire the advance of NEXT, which wraps when it reaches 86400 (R210, R211). -/
def pschFire (t period : Nat) (p : Psch) : Bool × Psch :=
  if p.next.toNat ≤ t ∧ p.wait = false then
    if 86400 ≤ p.next.toNat + period then
      (true, { p with next := BitVec.ofNat 32 (p.next.toNat + period - 86400), wait := true })
    else (true, { p with next := BitVec.ofNat 32 (p.next.toNat + period) })
  else (false, p)

/-- What one PSCH poll does to NEXT, WAIT and LASTHOUR, and whether it fires (R210). -/
def pschAdvance (hour minute second : Byte) (schedule : Half) (p : Psch) : Bool × Psch :=
  pschFire (secondOfDay hour minute second) (secondPeriod schedule) (pschObserveHour hour p)

/-- PSCH_POLL (R210, R215, R218). -/
def execPschPoll (hour minute second : Byte) (schedule : Half) (s : State) : Host.Outcome State Fault Refusal :=
  if calendarTime hour minute second = false then .refused .timeOutOfRange
  else if schedule.toNat = 0 then .refused .pschScheduleZero
  else
    let r := pschAdvance hour minute second schedule s.psch
    .next ({ s with psch := r.2 }.returns (.fire r.1))

end Sys2Proof.Machine
end

