-- ==== Sys2Proof/Machine/Dispatch.lean ====
section
/-! DEFINITION. One arm per constructor of Instr, each one call of its meaning. -/

namespace Sys2Proof.Machine

def exec (i : Instr) (s : State) : Host.Outcome State Fault Refusal :=
  match i with
  | .rdm b => Sys2Proof.Machine.execRdm b s
  | .wrm b => Sys2Proof.Machine.execWrm b s
  | .rds b => Sys2Proof.Machine.execRds b s
  | .wrs b => Sys2Proof.Machine.execWrs b s
  | .fwu b => Sys2Proof.Machine.execFwu b s
  | .ctl b => Sys2Proof.Machine.execCtl b s
  | .unk tag rest => Sys2Proof.Machine.execUnk tag rest s
  | .err tag code => Sys2Proof.Machine.execErr tag code s
  | .encEvent eventId payload => Sys2Proof.Machine.execEncEvent eventId payload s
  | .encStart resetCount => Sys2Proof.Machine.execEncStart resetCount s
  | .encPair parameterId value diff => Sys2Proof.Machine.execEncPair parameterId value diff s
  | .encShort payload number schedule packed => Sys2Proof.Machine.execEncShort payload number schedule packed s
  | .parse inValid len => Sys2Proof.Machine.execParse inValid len s
  | .register romRead romWrite fw cmd => Sys2Proof.Machine.execRegister romRead romWrite fw cmd s
  | .adaptRead bufValid a => Sys2Proof.Machine.execAdaptRead bufValid a s
  | .adaptWrite bufValid a v => Sys2Proof.Machine.execAdaptWrite bufValid a v s
  | .apcDecode packed => Sys2Proof.Machine.execApcDecode packed s
  | .schPoll hour minute schedule => Sys2Proof.Machine.execSchPoll hour minute schedule s
  | .pschPoll hour minute second schedule => Sys2Proof.Machine.execPschPoll hour minute second schedule s

end Sys2Proof.Machine
end

