-- ==== Sys2Proof/Machine/Step.lean ====
section
/-! DEFINITION. One step: the host's next operation, from invocation to return (R6), or nothing while the host invokes none
(R270). -/

namespace Sys2Proof.Machine

/-- The host hands over the buffers of its next operation and the block executes it to completion (R4, R6); an operation that
overlaps the one before it or the one after it has no meaning (R255, R280). -/
def step (s : State) : Host.Outcome State Fault Refusal :=
  match s.pending with
  | [] => .next s
  | c :: rest =>
    if overlapped c rest then .refused .overlappingOperations
    else exec c.op.val (s.accept c rest)

/-- s with the packet whose bits are w handed over as the next PARSE: the packet stands in IN, OUT holds CAP bytes, the
host can present a packet of that length, and the operation after it waits for it to return. -/
def State.withFetchWord (s : State) (nbits w : Nat) : State :=
  let packet := packetOfWord nbits w
  { s with
    cfg := { s.cfg with maxLen := s.cfg.maxLen + packet.length }
    pending :=
      { op := ⟨.parse true packet.length, rfl⟩
        input := some packet
        output := some { room := .asRequired, bytes := [] } } :: serialised s.pending }

end Sys2Proof.Machine
end

