-- ==== Sys2Proof/Safety.lean ====
section
/-! DEFINITION. The terms in which claims are stated: the invariant of the machine, the duties of the host and of the
collaborators as conditions on a state, the calls an operation may make, and sequences of polls. -/

namespace Sys2Proof.Machine

/-! ## The invariant -/

/-- The slot is as REGISTER leaves it (R23): a presence bit is set exactly when its references are bound. -/
def Reg.consistent (r : Reg) : Bool :=
  (r.provValid == (r.romRead.isSome && r.romWrite.isSome)) && (r.fwValid == r.fw.isSome)
    && (r.cmdValid == r.cmd.isSome)

/-- NEXT is below one day (R26, R212) and LASTHOUR is an hour (R28). -/
def Psch.inRange (p : Psch) : Bool :=
  decide (p.next.toNat < 86400) && decide (p.lastHour.toNat ≤ 23)

/-- The three byte spaces are in their canonical form. -/
def State.canonical (s : State) : Bool := Memory.wf s.input && Memory.wf s.out.cells && Memory.wf s.eout.cells

/-- What every step keeps. -/
def State.inv (s : State) : Bool := s.canonical && s.reg.consistent && s.psch.inRange

/-! ## Duties kept -/

/-- The host keeps the duties of a PARSE with a packet of this length: IN and OUT apart, OUT of CAP bytes, len at most
MAXLEN (R285 (b), (c), (l)). -/
def State.parseReady (s : State) (len : Nat) : Bool :=
  !s.inOutOverlap && s.out.room.holds s.cfg.cap.val && decide (len ≤ s.cfg.maxLen)

/-- The next read of a is answered, by a provider that keeps its duties, with Ok and v. -/
def State.readOk (s : State) (a : Addr) (v : Value) : Bool :=
  decide (s.readAnswer a = { status := 0, value := v, conduct := .proper })

/-- The next read of a is answered, by a provider that keeps its duties, with c. -/
def State.readFails (s : State) (a : Addr) (c : ErrorCode) : Bool :=
  decide ((s.readAnswer a).conduct = .proper ∧ (s.readAnswer a).status = errorNumber c)

/-- The next write of v at a is answered, by a provider that keeps its duties, with st. -/
def State.writeGives (s : State) (a : Addr) (v : Value) (st : Status) : Bool :=
  decide (s.writeAnswer a v = { status := statusNumber st, conduct := .proper })

/-- The reads of a block from index i on, one for each value, are all answered with Ok and that value. -/
def readsOk (start : Addr) : List Value → Nat → State → Bool
  | [], _, _ => true
  | v :: more, i, s =>
    s.readOk (addrAt start i) v && readsOk start more (i + 1) (s.afterRead (addrAt start i))

/-- The state once n reads of a block have been answered, from index i on. -/
def afterReads (start : Addr) : Nat → Nat → State → State
  | 0, _, s => s
  | n + 1, i, s => afterReads start n (i + 1) (s.afterRead (addrAt start i))

/-- The writes of a block from index i on are all answered with Ok. -/
def writesOk (start : Addr) : List Value → Nat → State → Bool
  | [], _, _ => true
  | v :: more, i, s =>
    s.writeGives (addrAt start i) v .ok && writesOk start more (i + 1) (s.afterWrite (addrAt start i) v)

/-- The state once the writes of a block have been answered, from index i on. -/
def afterWrites (start : Addr) : List Value → Nat → State → State
  | [], _, s => s
  | v :: more, i, s => afterWrites start more (i + 1) (s.afterWrite (addrAt start i) v)

/-- The reads of these additional parameters are all answered with Ok and these values. -/
def additionalReadsOk : List SixBit → List Value → State → Bool
  | [], [], _ => true
  | a :: as, v :: vs, s => s.readOk (additionalAddr a) v && additionalReadsOk as vs (s.afterRead (additionalAddr a))
  | _, _, _ => false

/-- The state once these additional parameters have been read. -/
def afterAdditionalReads : List SixBit → State → State
  | [], s => s
  | a :: as, s => afterAdditionalReads as (s.afterRead (additionalAddr a))

/-- The value bytes of a response or message: four for each value (R83). -/
def valueBytes (vs : List Value) : List Byte := vs.flatMap be32

/-- The additional-parameter blocks of a ShortRegular message (R88). -/
def blockBytes (as : List SixBit) (vs : List Value) : List Byte := (as.zip vs).flatMap (fun p => additionalBlock p.1 p.2)

/-- A handler that keeps its duties (R251): it stores inside OUT only, reports at most CAP bytes, and its status is st. -/
def handlerGives (cap : Nat) (st : Status) (ans : HandlerAnswer) : Bool :=
  decide (ans.conduct = .proper) && ans.stores.all (fun c => decide (c.1 < cap)) && decide (ans.written ≤ cap)
    && decide (ans.status = statusNumber st)

/-! ## The calls of an operation -/

/-- A status a provider or handler may answer (R230). -/
def legalStatus (b : Byte) : Bool := decide (b.toNat ≤ 6)

/-- A read answer that keeps the provider's duties (R250). -/
def readAnswerProper (ans : ReadAnswer) : Bool := decide (ans.conduct = .proper) && legalStatus ans.status

/-- A write answer that keeps the provider's duties (R250). -/
def writeAnswerProper (ans : WriteAnswer) : Bool := decide (ans.conduct = .proper) && legalStatus ans.status

/-- A handler answer that keeps the handler's duties (R251). -/
def handlerAnswerProper (cap : Nat) (ans : HandlerAnswer) : Bool :=
  decide (ans.conduct = .proper) && ans.stores.all (fun c => decide (c.1 < cap)) && decide (ans.written ≤ cap)
    && legalStatus ans.status

/-- The reads of a block that are made, up to the first that fails, are answered properly by a registered provider. -/
def readsProper (start : Addr) : Nat → Nat → State → Bool
  | 0, _, _ => true
  | n + 1, i, s =>
    s.reg.provValid && readAnswerProper (s.readAnswer (addrAt start i))
      && ((s.readAnswer (addrAt start i)).status != 0 || readsProper start n (i + 1) (s.afterRead (addrAt start i)))

/-- The writes of a block that are made, up to the first that fails, are answered properly by a registered provider. -/
def writesProper (start : Addr) : List Value → Nat → State → Bool
  | [], _, _ => true
  | v :: more, i, s =>
    s.reg.provValid && writeAnswerProper (s.writeAnswer (addrAt start i) v)
      && ((s.writeAnswer (addrAt start i) v).status != 0
        || writesProper start more (i + 1) (s.afterWrite (addrAt start i) v))

/-- The error that a request has whatever the collaborators answer, in the order of R120: the tag, the length, then the
capacity or the handler's presence. -/
def structuralError (s : State) : Instr → Option ErrorCode
  | .rdm (.badLength _) => some .invalidLength
  | .rdm (.valid f) => if s.cfg.cap.val < multiLength f.count.toNat then some .invalidLength else none
  | .wrm (.badLength _) => some .invalidLength
  | .wrm (.valid _) => none
  | .rds (.badLength _) => some .invalidLength
  | .rds (.valid _) => none
  | .wrs (.badLength _) => some .invalidLength
  | .wrs (.valid _) => none
  | .fwu (.badLength _) => some .invalidLength
  | .fwu (.valid _) => if s.reg.fwValid then none else some .invalidType
  | .ctl (.badLength _) => some .invalidLength
  | .ctl (.valid _) => if s.reg.cmdValid then none else some .invalidType
  | .unk _ _ => some .invalidType
  | .err _ _ => none
  | .encEvent _ _ => none
  | .encStart _ => none
  | .encPair _ _ _ => none
  | .encShort _ _ _ _ => none
  | .parse _ _ => none
  | .register _ _ _ _ => none
  | .adaptRead _ _ => none
  | .adaptWrite _ _ _ => none
  | .apcDecode _ => none
  | .schPoll _ _ _ => none
  | .pschPoll _ _ _ _ => none

/-- The calls that a request makes are answered properly (R230, R250, R251), the provider being registered where one is
needed (R159). -/
def callsProper (s : State) (i : Instr) : Bool :=
  (structuralError s i).isSome ||
    match i with
    | .rdm (.valid f) => readsProper f.start f.count.toNat 0 s
    | .wrm (.valid f) => writesProper f.start f.values 0 s
    | .rds (.valid a) => s.reg.provValid && readAnswerProper (s.readAnswer a)
    | .wrs (.valid f) => s.reg.provValid && writeAnswerProper (s.writeAnswer f.addr f.value)
    | .fwu (.valid body) =>
      handlerAnswerProper s.cfg.cap.val (s.firmwareAnswer (0x29 :: body))
    | .ctl (.valid body) =>
      handlerAnswerProper s.cfg.cap.val (s.commandAnswer (0x27 :: body))
    | _ => true

/-- The kinds of call an operation may make (R55, R150, R178). PARSE may make those of its handlers. -/
def mayCall : Instr → CallEvent → Bool
  | .rdm _, .read _ _ _ => true
  | .rds _, .read _ _ _ => true
  | .encShort _ _ _ _, .read _ _ _ => true
  | .adaptRead _ _, .read _ _ _ => true
  | .wrm _, .write _ _ _ _ => true
  | .wrs _, .write _ _ _ _ => true
  | .adaptWrite _ _ _, .write _ _ _ _ => true
  | .fwu _, .firmware _ _ _ => true
  | .ctl _, .command _ _ _ => true
  | .parse _ _, _ => true
  | _, _ => false

/-! ## Outcomes and polls -/

/-- An outcome with its next state changed. -/
def onNext (f : State → State) : Host.Outcome State Fault Refusal → Host.Outcome State Fault Refusal
  | .next t => .next (f t)
  | .fault x => .fault x
  | .refused r => .refused r

/-- The fire bits of polls, one poll after the other, and the state after them; none where a poll gives no fire bit. -/
def pollAll : List Instr → State → Option (List Bool × State)
  | [], s => some ([], s)
  | i :: more, s =>
    match exec i s with
    | .next t =>
      match t.result, pollAll more t with
      | .fire f, some (fs, u) => some (f :: fs, u)
      | _, _ => none
    | _ => none

/-- SCH polled in minute n of the day. -/
def schPollAt (schedule : Half) (n : Nat) : Instr :=
  .schPoll (BitVec.ofNat 8 (n / 60)) (BitVec.ofNat 8 (n % 60)) schedule

/-- Two SCH polls in every minute of a day (R201). -/
def schDay (schedule : Half) : List Instr :=
  (List.range 1440).flatMap (fun n => [schPollAt schedule n, schPollAt schedule n])

/-- PSCH polled in second n of the day. -/
def pschPollAt (schedule : Half) (n : Nat) : Instr :=
  .pschPoll (BitVec.ofNat 8 (n / 3600)) (BitVec.ofNat 8 (n / 60 % 60)) (BitVec.ofNat 8 (n % 60)) schedule

/-- One PSCH poll in every second of a day (R214). -/
def pschDay (schedule : Half) : List Instr := (List.range 86400).map (pschPollAt schedule)

end Sys2Proof.Machine
end

