-- ==== Sys2Proof/Certificates/Slice0/Obligations.lean ====
section
/-! DEFINITION. The statements for the provers. A sentence in a docstring that begins "Decision" names the choice of the spec
(92_eei_decisions.md) or of the model (notes/assumptions) that a clause rests on. -/

open Sys2Proof Sys2Proof.Machine

/-! ## Encoding -/

/-- The encoder's packet of a well-formed request decodes to that request, with every operand (R82, R90, R94). -/
def Obligations.DecodeInvertsEncode : Prop :=
  ∀ (i : Instr) (bs : List Byte), i.wellFormed = true → encode i = some bs → decode bs = .ok i

/-- Every packet decodes to a well-formed request whose encoding is that packet: no byte of a packet is dropped (R82, R94). -/
def Obligations.EncodeInvertsDecode : Prop :=
  ∀ (i : Instr) (bs : List Byte), decode bs = .ok i → i.wellFormed = true ∧ encode i = some bs

/-- The tag map over all 256 values of in[0]: which handler's request each of them decodes to (R91). -/
def Obligations.TagSelectsTheHandler : Prop :=
  ∀ rest : List Byte,
    (∃ b, decode (0x03 :: rest) = .ok (.rdm b)) ∧ (∃ b, decode (0x06 :: rest) = .ok (.wrs b)) ∧
    (∃ b, decode (0x07 :: rest) = .ok (.rds b)) ∧ (∃ b, decode (0x10 :: rest) = .ok (.wrm b)) ∧
    (∃ b, decode (0x27 :: rest) = .ok (.ctl b)) ∧ (∃ b, decode (0x29 :: rest) = .ok (.fwu b)) ∧
    ∀ tag : Byte, tag ≠ 0x03 → tag ≠ 0x06 → tag ≠ 0x07 → tag ≠ 0x10 → tag ≠ 0x27 → tag ≠ 0x29 →
      decode (tag :: rest) = .ok (.unk tag rest)

/-- Packets written out from the formats of R82 decode to the requests they stand for. -/
def Obligations.WrittenPacketsDecode : Prop :=
  decode [0x03, 0x00, 0x10, 0x00, 0x02] = .ok (.rdm (.valid ⟨0x0010, 2⟩)) ∧
  decode [0x10, 0x00, 0x40, 0x00, 0x02, 0x00, 0x00, 0x00, 0x01, 0xFF, 0xFF, 0xFF, 0xFF]
    = .ok (.wrm (.valid ⟨0x0040, [1, 0xFFFFFFFF]⟩)) ∧
  decode [0x07, 0x12, 0x34] = .ok (.rds (.valid 0x1234)) ∧
  decode [0x06, 0x00, 0x20, 0x00, 0x00, 0x00, 0x2A] = .ok (.wrs (.valid ⟨0x0020, 42⟩)) ∧
  decode [0x29, 0x05, 0x09, 0x09] = .ok (.fwu (.valid [0x05, 0x09, 0x09])) ∧
  decode [0x27, 1, 2, 3, 4, 5, 6] = .ok (.ctl (.valid [1, 2, 3, 4, 5, 6])) ∧
  decode [0x20, 0, 0, 0, 0] = .ok (.unk 0x20 [0, 0, 0, 0])

/-- The multi-byte layouts as numbers: big-endian, both ways (R13). -/
def Obligations.FieldsAreBigEndian : Prop :=
  (∀ b0 b1 : Byte, (u16 b0 b1).toNat = 256 * b0.toNat + b1.toNat) ∧
  (∀ b0 b1 b2 b3 : Byte, (s32 b0 b1 b2 b3).toInt =
    Int.bmod (2 ^ 24 * b0.toNat + 2 ^ 16 * b1.toNat + 2 ^ 8 * b2.toNat + b3.toNat) (2 ^ 32)) ∧
  (∀ v : Half, be16 v = [BitVec.ofNat 8 (v.toNat / 2 ^ 8), BitVec.ofNat 8 v.toNat]) ∧
  (∀ v : Word, be32 v = [BitVec.ofNat 8 (v.toNat / 2 ^ 24), BitVec.ofNat 8 (v.toNat / 2 ^ 16),
    BitVec.ofNat 8 (v.toNat / 2 ^ 8), BitVec.ofNat 8 v.toNat])

/-- The numbers of the seven status codes, and that no other number is one (R16). -/
def Obligations.StatusCodesAreNumbered : Prop :=
  statusNumber .ok = 0 ∧ statusNumber (.error .invalidType) = 1 ∧ statusNumber (.error .invalidAddress) = 2 ∧
  statusNumber (.error .invalidValue) = 3 ∧ statusNumber (.error .lowLevelError) = 4 ∧
  statusNumber (.error .readOnly) = 5 ∧ statusNumber (.error .invalidLength) = 6 ∧
  ∀ (b : Byte) (st : Status), statusOfNumber b = some st ↔ b = statusNumber st

/-! ## The step -/

/-- With no operation invoked nothing happens; neither of two overlapping operations has a meaning, that is one started before the
previous one has returned and one that the next one does not wait for; any other one is executed on the state in which its
buffers have been handed over (R6, R255, R270, R280). Decisions: the host's operations are a list in the state (log entry 6),
and a mark of a call says that it overlaps the one before (log entry 7). -/
def Obligations.StepRunsTheNextHostOperation : Prop :=
  (∀ s : State, s.pending = [] → step s = .next s) ∧
  (∀ (s : State) (c : HostCall) (rest : List HostCall), s.pending = c :: rest → c.overlapping = true →
    step s = .refused .overlappingOperations) ∧
  (∀ (s : State) (c d : HostCall) (rest : List HostCall), s.pending = c :: d :: rest → d.overlapping = true →
    step s = .refused .overlappingOperations) ∧
  (∀ (s : State) (c : HostCall) (rest : List HostCall), s.pending = c :: rest → c.overlapping = false →
    (∀ d ∈ rest.head?, d.overlapping = false) → step s = exec c.op.val (s.accept c rest))

/-- A step whose operation, overlapping neither the one before nor the one after, is a PARSE of a packet that decodes to i is
`exec` of i (R110, R91). -/
def Obligations.StepRunsTheDecodedPacket : Prop :=
  ∀ (s : State) (c : HostCall) (rest : List HostCall) (bs : List Byte) (i : Instr),
    s.pending = c :: rest → c.overlapping = false → (∀ d ∈ rest.head?, d.overlapping = false) →
    c.op.val = .parse true bs.length →
    (s.accept c rest).input.readRange 0 bs.length = some bs → decode bs = .ok i →
    step s = exec i (s.accept c rest)

/-! ## Reset and invariants -/

/-- What reset leaves in the block's state (R30). Decisions: D14 (the spec's own) gives the three PSCH values. -/
def Obligations.ResetLeavesTheStatedValues : Prop :=
  State.reset.reg.provValid = false ∧ State.reset.reg.fwValid = false ∧ State.reset.reg.cmdValid = false ∧
  State.reset.reg.romRead = none ∧ State.reset.reg.romWrite = none ∧ State.reset.reg.fw = none ∧
  State.reset.reg.cmd = none ∧ State.reset.sch.latch = false ∧ State.reset.psch.next = 0 ∧
  State.reset.psch.wait = false ∧ State.reset.psch.lastHour = 0

/-- The state right after reset meets the invariant. Decisions: log entries 1 and 14, and D14. -/
def Obligations.ResetMeetsTheInvariant : Prop := State.reset.inv = true

/-- Every step keeps the invariant, from every state that meets it: the byte spaces in canonical form, the presence bits as
the references (R23), NEXT below one day and LASTHOUR an hour (R26, R28, R212). -/
def Obligations.StepKeepsTheInvariant : Prop :=
  ∀ s t : State, s.inv = true → step s = .next t → t.inv = true

/-- No step changes CAP, MAXLEN or PAIR_EVENT_TAG (R271). -/
def Obligations.StepKeepsTheConfiguration : Prop :=
  ∀ s t : State, step s = .next t → t.cfg = s.cfg

/-- Nothing un-registers the provider: once PROV_VALID is 1 every operation leaves it 1 (R272). -/
def Obligations.ProviderStaysRegistered : Prop :=
  ∀ (i : Instr) (s t : State), s.reg.provValid = true → exec i s = .next t → t.reg.provValid = true

/-- REG is written only by REGISTER and only as a whole: another operation leaves it, and REGISTER leaves it or writes all
seven fields from its operands (R24, R156). -/
def Obligations.OnlyRegisterWritesTheSlot : Prop :=
  ∀ (i : Instr) (s t : State), exec i s = .next t →
    t.reg = s.reg ∨
    ∃ r w f c : Option Ref, i = .register r w f c ∧
      t.reg = { provValid := true, fwValid := f.isSome, cmdValid := c.isSome,
                romRead := r, romWrite := w, fw := f, cmd := c }

/-- SCH_POLL alone writes SCH.LATCH, PSCH_POLL alone writes NEXT, WAIT and LASTHOUR, and neither writes REG (R29). -/
def Obligations.SchedulersOwnTheirState : Prop :=
  ∀ (i : Instr) (s t : State), exec i s = .next t →
    (t.sch = s.sch ∨ ((∃ h m d, i = .schPoll h m d) ∧ t.psch = s.psch ∧ t.reg = s.reg)) ∧
    (t.psch = s.psch ∨ ((∃ h m c d, i = .pschPoll h m c d) ∧ t.sch = s.sch ∧ t.reg = s.reg))

/-! ## The calls to the collaborators -/

/-- The calls an operation makes are added to those before it, in order; they are of the kinds its row in the access table
allows; they go through the references of the one registration slot; and a provider or handler is called only when it is
registered (R24, R55, R60, R117, R118, R150, R159, R178). -/
def Obligations.OperationsCallOnlyTheirCollaborators : Prop :=
  ∀ (i : Instr) (s t : State), exec i s = .next t →
    ∃ es : List CallEvent, t.history = s.history ++ es ∧
      ∀ e ∈ es, mayCall i e = true ∧
        match e with
        | .read r _ _ => s.reg.provValid = true ∧ r = s.reg.romRead
        | .write r _ _ _ => s.reg.provValid = true ∧ r = s.reg.romWrite
        | .firmware r _ _ => s.reg.fwValid = true ∧ r = s.reg.fw
        | .command r _ _ => s.reg.cmdValid = true ∧ r = s.reg.cmd

/-! ## The PacketDispatcher -/

/-- ERR: out[0] is in[0] with bit 6 set, out[1] the code, the result 2, and nothing else changes (R112). -/
def Obligations.ErrWritesTheErrorFrame : Prop :=
  ∀ (tag : Byte) (c : ErrorCode) (s : State), s.parseReady 1 = true →
    exec (.err tag c) s = .next
      { s with
        out := { s.out with cells := s.out.cells.writeBytes 0 [tag ||| 0x40, statusNumber (.error c)] }
        result := .length 2 }

/-- UNK: the error frame with code 1, for every length of at least 1 and whatever follows the tag; and PARSE answers so to every
tag but the six, among them 0x20, PAIR_EVENT_TAG and every tag with bit 7 or bit 6 set (R119). -/
def Obligations.UnknownTagAnswersInvalidType : Prop :=
  (∀ (tag : Byte) (rest : List Byte) (s : State), s.parseReady (rest.length + 1) = true →
    exec (.unk tag rest) s = .next
      { s with
        out := { s.out with cells := s.out.cells.writeBytes 0 [tag ||| 0x40, 1] }
        result := .length 2 }) ∧
  (∀ (tag : Byte) (rest : List Byte) (s : State), s.parseReady (rest.length + 1) = true →
    s.input.readRange 0 (rest.length + 1) = some (tag :: rest) →
    tag ≠ 0x03 → tag ≠ 0x06 → tag ≠ 0x07 → tag ≠ 0x10 → tag ≠ 0x27 → tag ≠ 0x29 →
    exec (.parse true (rest.length + 1)) s = .next
      { s with
        out := { s.out with cells := s.out.cells.writeBytes 0 [tag ||| 0x40, 1] }
        result := .length 2 }) ∧
  (∀ (cfg : Config) (tag : Byte),
    tag = 0x20 ∨ tag = cfg.pairEventTag.val ∨ tag.getLsbD 7 = true ∨ tag.getLsbD 6 = true →
    tag ≠ 0x03 ∧ tag ≠ 0x06 ∧ tag ≠ 0x07 ∧ tag ≠ 0x10 ∧ tag ≠ 0x27 ∧ tag ≠ 0x29)

/-- A request with a structural error is answered with the error frame of the first one in the order tag, length, then
capacity or presence; no call is made and nothing else changes (R120, R231). Decisions: D6 and D7 (the spec's own). -/
def Obligations.StructuralErrorsComeFirst : Prop :=
  ∀ (i : Instr) (tag : Byte) (rest : List Byte) (c : ErrorCode) (s : State),
    encode i = some (tag :: rest) → s.parseReady (rest.length + 1) = true → structuralError s i = some c →
    exec i s = .next
      { s with
        out := { s.out with cells := s.out.cells.writeBytes 0 [tag ||| 0x40, statusNumber (.error c)] }
        result := .length 2 }

/-- RDM with a response that fits and reads that are all answered Ok: one read for each address in ascending order, the header
echoed, the values appended, the result 5 + 4·count (R113). Decision: D8 (the spec's own), the address wraps. -/
def Obligations.RdmReadsTheBlockInOrder : Prop :=
  ∀ (start : Addr) (count : Half) (vs : List Value) (s : State),
    s.parseReady 5 = true → 5 + 4 * count.toNat ≤ s.cfg.cap.val → vs.length = count.toNat →
    (vs ≠ [] → s.reg.provValid = true) → readsOk start vs 0 s = true →
    exec (.rdm (.valid ⟨start, count⟩)) s = .next
      { afterReads start count.toNat 0 s with
        out := { s.out with
          cells := s.out.cells.writeBytes 0 (0x03 :: (be16 start ++ be16 count) ++ valueBytes vs) }
        result := .length (5 + 4 * count.toNat) }

/-- RDM whose first failing read is the one after these values: exactly those reads and the failing one are made, the response
is the error frame with the provider's status, and the values read stay as residue with some word after them (R113, R235).
Decisions: D8 and D11 (the spec's own), log entry 9 (the word is free). -/
def Obligations.RdmStopsAtTheFirstFailingRead : Prop :=
  ∀ (start : Addr) (count : Half) (vs : List Value) (c : ErrorCode) (s : State),
    s.parseReady 5 = true → 5 + 4 * count.toNat ≤ s.cfg.cap.val → vs.length < count.toNat →
    s.reg.provValid = true → readsOk start vs 0 s = true →
    (afterReads start vs.length 0 s).readFails (addrAt start vs.length) c = true →
    ∃ w : Word, exec (.rdm (.valid ⟨start, count⟩)) s = .next
      { (afterReads start vs.length 0 s).afterRead (addrAt start vs.length) with
        out := { s.out with
          cells := (s.out.cells.writeBytes 0
              (0x03 :: (be16 start ++ be16 count) ++ valueBytes vs ++ be32 w)).writeBytes 0
            [0x43, statusNumber (.error c)] }
        result := .length 2
        freeCount := s.freeCount + 1 }

/-- WRM with writes that are all answered Ok: one write for each value in ascending order, and the five header bytes as the
response, no value echoed (R114). Decision: D8 (the spec's own), the address wraps. -/
def Obligations.WrmWritesTheBlockInOrder : Prop :=
  ∀ (start : Addr) (vs : List Value) (s : State),
    s.parseReady (5 + 4 * vs.length) = true → vs.length < 65536 → (vs ≠ [] → s.reg.provValid = true) →
    writesOk start vs 0 s = true →
    exec (.wrm (.valid ⟨start, vs⟩)) s = .next
      { afterWrites start vs 0 s with
        out := { s.out with
          cells := s.out.cells.writeBytes 0 (0x10 :: (be16 start ++ be16 (BitVec.ofNat 16 vs.length))) }
        result := .length 5 }

/-- WRM whose first failing write is that of v, after the values vs: the writes of vs and the failing one are made and no
other, the earlier ones stay made, and the response is the error frame with the provider's status (R114, R67, R235).
Decisions: D8 and D11 (the spec's own). -/
def Obligations.WrmStopsAtTheFirstFailingWrite : Prop :=
  ∀ (start : Addr) (vs more : List Value) (v : Value) (c : ErrorCode) (s : State),
    s.parseReady (5 + 4 * (vs ++ v :: more).length) = true → (vs ++ v :: more).length < 65536 →
    s.reg.provValid = true → writesOk start vs 0 s = true →
    (afterWrites start vs 0 s).writeGives (addrAt start vs.length) v (.error c) = true →
    exec (.wrm (.valid ⟨start, vs ++ v :: more⟩)) s = .next
      { (afterWrites start vs 0 s).afterWrite (addrAt start vs.length) v with
        out := { s.out with
          cells := (s.out.cells.writeBytes 0
              (0x10 :: (be16 start ++ be16 (BitVec.ofNat 16 (vs ++ v :: more).length)))).writeBytes 0
            [0x50, statusNumber (.error c)] }
        result := .length 2 }

/-- RDS: a wrong length is answered with code 6 and no call; else the header and the value when the one read is answered Ok,
and the error frame with the provider's status when it is not, the slot of the value holding some word (R115). Decisions: D11
(the spec's own; log entry 13), the header is echoed before the read and stays under the error frame; log entry 9, the word of
a failing read is free. -/
def Obligations.RdsAnswersTheValue : Prop :=
  (∀ (rest : List Byte) (s : State), s.parseReady (rest.length + 1) = true →
    exec (.rds (.badLength rest)) s = .next
      { s with out := { s.out with cells := s.out.cells.writeBytes 0 [0x47, 6] }, result := .length 2 }) ∧
  (∀ (a : Addr) (v : Value) (s : State),
    s.parseReady 3 = true → s.reg.provValid = true → s.readOk a v = true →
    exec (.rds (.valid a)) s = .next
      { s.afterRead a with
        out := { s.out with cells := s.out.cells.writeBytes 0 (0x07 :: be16 a ++ be32 v) }
        result := .length 7 }) ∧
  (∀ (a : Addr) (c : ErrorCode) (s : State),
    s.parseReady 3 = true → s.reg.provValid = true → s.readFails a c = true →
    ∃ w : Word, exec (.rds (.valid a)) s = .next
      { s.afterRead a with
        out := { s.out with
          cells := (s.out.cells.writeBytes 0 (0x07 :: be16 a ++ be32 w)).writeBytes 0
            [0x47, statusNumber (.error c)] }
        result := .length 2
        freeCount := s.freeCount + 1 })

/-- WRS: a wrong length is answered with code 6 and nothing mirrored; else all seven bytes are mirrored, the one write is
made, and a failure overwrites the first two bytes only (R116). -/
def Obligations.WrsMirrorsBeforeTheWrite : Prop :=
  (∀ (rest : List Byte) (s : State), s.parseReady (rest.length + 1) = true →
    exec (.wrs (.badLength rest)) s = .next
      { s with out := { s.out with cells := s.out.cells.writeBytes 0 [0x46, 6] }, result := .length 2 }) ∧
  (∀ (a : Addr) (v : Value) (s : State),
    s.parseReady 7 = true → s.reg.provValid = true → s.writeGives a v .ok = true →
    exec (.wrs (.valid ⟨a, v⟩)) s = .next
      { s.afterWrite a v with
        out := { s.out with cells := s.out.cells.writeBytes 0 (0x06 :: (be16 a ++ be32 v)) }
        result := .length 7 }) ∧
  (∀ (a : Addr) (v : Value) (c : ErrorCode) (s : State),
    s.parseReady 7 = true → s.reg.provValid = true → s.writeGives a v (.error c) = true →
    exec (.wrs (.valid ⟨a, v⟩)) s = .next
      { s.afterWrite a v with
        out := { s.out with
          cells := (s.out.cells.writeBytes 0 (0x06 :: (be16 a ++ be32 v))).writeBytes 0
            [0x46, statusNumber (.error c)] }
        result := .length 2 })

/-- FWU: a wrong length is answered with code 6, an absent handler with code 1, and neither with a call; else the whole packet
is handed over, on Ok the response is what the handler wrote, and otherwise the error frame overwrites its first two bytes
(R117, R251). Decisions: D7 and D16 (the spec's own). -/
def Obligations.FwuDelegatesToTheFirmwareHandler : Prop :=
  (∀ (rest : List Byte) (s : State), s.parseReady (rest.length + 1) = true →
    exec (.fwu (.badLength rest)) s = .next
      { s with out := { s.out with cells := s.out.cells.writeBytes 0 [0x69, 6] }, result := .length 2 }) ∧
  (∀ (body : List Byte) (s : State), s.parseReady (body.length + 1) = true → s.reg.fwValid = false →
    exec (.fwu (.valid body)) s = .next
      { s with out := { s.out with cells := s.out.cells.writeBytes 0 [0x69, 1] }, result := .length 2 }) ∧
  (∀ (body : List Byte) (s : State),
    body ≠ [] → s.parseReady (body.length + 1) = true → s.reg.fwValid = true →
    handlerGives s.cfg.cap.val .ok (s.firmwareAnswer (0x29 :: body)) = true →
    exec (.fwu (.valid body)) s = .next
      { s with
        out := { s.out with cells := s.out.cells.writeCells (s.firmwareAnswer (0x29 :: body)).stores }
        firmwareAnswers := s.firmwareAnswers.tail
        history := s.history ++ [.firmware s.reg.fw (0x29 :: body) (s.firmwareAnswer (0x29 :: body))]
        result := .length (s.firmwareAnswer (0x29 :: body)).written }) ∧
  (∀ (body : List Byte) (c : ErrorCode) (s : State),
    body ≠ [] → s.parseReady (body.length + 1) = true → s.reg.fwValid = true →
    handlerGives s.cfg.cap.val (.error c) (s.firmwareAnswer (0x29 :: body)) = true →
    exec (.fwu (.valid body)) s = .next
      { s with
        out := { s.out with
          cells := (s.out.cells.writeCells (s.firmwareAnswer (0x29 :: body)).stores).writeBytes 0
            [0x69, statusNumber (.error c)] }
        firmwareAnswers := s.firmwareAnswers.tail
        history := s.history ++ [.firmware s.reg.fw (0x29 :: body) (s.firmwareAnswer (0x29 :: body))]
        result := .length 2 })

/-- CTL: a wrong length is answered with code 6, an absent handler with code 1, and neither with a call; else the whole packet
is handed over, on Ok the response is what the handler wrote, and otherwise the error frame overwrites its first two bytes
(R118, R251). Decisions: D7 (the length before the presence) and D16 (the handler's contract), both the spec's own. -/
def Obligations.CtlDelegatesToTheCommandHandler : Prop :=
  (∀ (rest : List Byte) (s : State), s.parseReady (rest.length + 1) = true →
    exec (.ctl (.badLength rest)) s = .next
      { s with out := { s.out with cells := s.out.cells.writeBytes 0 [0x67, 6] }, result := .length 2 }) ∧
  (∀ (body : List Byte) (s : State), body.length = 6 → s.parseReady 7 = true → s.reg.cmdValid = false →
    exec (.ctl (.valid body)) s = .next
      { s with out := { s.out with cells := s.out.cells.writeBytes 0 [0x67, 1] }, result := .length 2 }) ∧
  (∀ (body : List Byte) (s : State),
    body.length = 6 → s.parseReady 7 = true → s.reg.cmdValid = true →
    handlerGives s.cfg.cap.val .ok (s.commandAnswer (0x27 :: body)) = true →
    exec (.ctl (.valid body)) s = .next
      { s with
        out := { s.out with cells := s.out.cells.writeCells (s.commandAnswer (0x27 :: body)).stores }
        commandAnswers := s.commandAnswers.tail
        history := s.history ++ [.command s.reg.cmd (0x27 :: body) (s.commandAnswer (0x27 :: body))]
        result := .length (s.commandAnswer (0x27 :: body)).written }) ∧
  (∀ (body : List Byte) (c : ErrorCode) (s : State),
    body.length = 6 → s.parseReady 7 = true → s.reg.cmdValid = true →
    handlerGives s.cfg.cap.val (.error c) (s.commandAnswer (0x27 :: body)) = true →
    exec (.ctl (.valid body)) s = .next
      { s with
        out := { s.out with
          cells := (s.out.cells.writeCells (s.commandAnswer (0x27 :: body)).stores).writeBytes 0
            [0x67, statusNumber (.error c)] }
        commandAnswers := s.commandAnswers.tail
        history := s.history ++ [.command s.reg.cmd (0x27 :: body) (s.commandAnswer (0x27 :: body))]
        result := .length 2 })

/-- PARSE as its front end says: absent or empty input gives result 0 and writes nothing; else the first byte selects the handler,
and PARSE does what that handler does on the packet that IN holds (R110). -/
def Obligations.ParseRunsTheSelectedHandler : Prop :=
  (∀ (inValid : Bool) (len : Nat) (s : State), s.parseReady len = true → inValid = false ∨ len = 0 →
    exec (.parse inValid len) s = .next { s with result := .length 0 }) ∧
  (∀ (tag : Byte) (rest : List Byte) (s : State), s.input.readRange 0 (rest.length + 1) = some (tag :: rest) →
    ∃ i : Instr, decode (tag :: rest) = .ok i ∧ exec (.parse true (rest.length + 1)) s = exec i s ∧
      (tag = 0x03 → ∃ b, i = .rdm b) ∧ (tag = 0x10 → ∃ b, i = .wrm b) ∧ (tag = 0x07 → ∃ b, i = .rds b) ∧
      (tag = 0x06 → ∃ b, i = .wrs b) ∧ (tag = 0x29 → ∃ b, i = .fwu b) ∧ (tag = 0x27 → ∃ b, i = .ctl b) ∧
      (tag ≠ 0x03 → tag ≠ 0x10 → tag ≠ 0x07 → tag ≠ 0x06 → tag ≠ 0x29 → tag ≠ 0x27 → i = .unk tag rest))

/-- PARSE is total: with the duties of R285 kept by the host and by the collaborators it calls, it ends, whatever the packet,
with a response of at most CAP bytes (R111, R122). -/
def Obligations.ParseAlwaysEnds : Prop :=
  ∀ (inValid : Bool) (len : Nat) (s : State), s.parseReady len = true →
    (inValid = true → ∃ bs : List Byte, s.input.readRange 0 len = some bs ∧
      ∀ i : Instr, decode bs = .ok i → callsProper s i = true) →
    ∃ (t : State) (n : Nat), exec (.parse inValid len) s = .next t ∧ t.result = .length n ∧ n ≤ s.cfg.cap.val

/-- PARSE, its handlers and ERR give back a length of at most CAP and change no byte of OUT at an offset of CAP or more, no byte
of IN or EOUT (R122). -/
def Obligations.ResponsesStayInsideCap : Prop :=
  ∀ (i : Instr) (s t : State),
    ((encode i).isSome = true ∨ (∃ g c, i = .err g c) ∨ (∃ v len, i = .parse v len)) → exec i s = .next t →
    (∃ n : Nat, t.result = .length n ∧ n ≤ s.cfg.cap.val) ∧
    (∀ a : Nat, s.cfg.cap.val ≤ a → t.out.cells.read a = s.out.cells.read a) ∧
    (∀ a : Nat, t.input.read a = s.input.read a) ∧ (∀ a : Nat, t.eout.cells.read a = s.eout.cells.read a)

/-- PARSE, its handlers and ERR change no state of the block, nor what the host handed over, nor the configuration; the answers
still to come change only by those they take (R121). -/
def Obligations.PacketsLeaveTheBlockAlone : Prop :=
  ∀ (i : Instr) (s t : State),
    ((encode i).isSome = true ∨ (∃ g c, i = .err g c) ∨ (∃ v len, i = .parse v len)) → exec i s = .next t →
    t.reg = s.reg ∧ t.sch = s.sch ∧ t.psch = s.psch ∧ t.cfg = s.cfg ∧ t.input = s.input ∧ t.eout = s.eout ∧
    t.out.room = s.out.room ∧ t.inOutOverlap = s.inOutOverlap ∧ t.pending = s.pending ∧
    (∃ n, t.readAnswers = s.readAnswers.drop n) ∧ (∃ n, t.writeAnswers = s.writeAnswers.drop n) ∧
    (∃ n, t.firmwareAnswers = s.firmwareAnswers.drop n) ∧ (∃ n, t.commandAnswers = s.commandAnswers.drop n)

/-- What PARSE, a handler or ERR does, its response included, does not depend on the schedulers, on EOUT or on an earlier
result (R121, R236). -/
def Obligations.PacketsIgnoreTheSchedulers : Prop :=
  ∀ (i : Instr) (s : State) (x : Sch) (y : Psch) (e : Buffer) (r : Result),
    ((encode i).isSome = true ∨ (∃ g c, i = .err g c) ∨ (∃ v len, i = .parse v len)) →
    exec i { s with sch := x, psch := y, eout := e, result := r } =
      onNext (fun t => { t with sch := x, psch := y, eout := e }) (exec i s)

/-- The bytes of OUT that a handler may change (R58, R113 to R119): the response's and the error frame's, and for FWU and CTL
the ones the registered handler stores; every other byte reads as before. Decision: D11 (the spec's own, R58, U22; log entry 13),
bytes that no step writes keep what they held. -/
def Obligations.HandlersStoreOnlyTheirBytes : Prop :=
  ∀ (s t : State) (a : Nat),
    (∀ start count, exec (.rdm (.valid ⟨start, count⟩)) s = .next t → 5 + 4 * count.toNat ≤ a →
      t.out.cells.read a = s.out.cells.read a) ∧
    (∀ start vs, exec (.wrm (.valid ⟨start, vs⟩)) s = .next t → 5 ≤ a →
      t.out.cells.read a = s.out.cells.read a) ∧
    (∀ d, exec (.rds (.valid d)) s = .next t → 7 ≤ a → t.out.cells.read a = s.out.cells.read a) ∧
    (∀ f, exec (.wrs (.valid f)) s = .next t → 7 ≤ a → t.out.cells.read a = s.out.cells.read a) ∧
    (∀ body, exec (.fwu (.valid body)) s = .next t → 2 ≤ a →
      (∀ c ∈ (s.firmwareAnswer (0x29 :: body)).stores, c.1 ≠ a) → t.out.cells.read a = s.out.cells.read a) ∧
    (∀ body, exec (.ctl (.valid body)) s = .next t → 2 ≤ a →
      (∀ c ∈ (s.commandAnswer (0x27 :: body)).stores, c.1 ≠ a) → t.out.cells.read a = s.out.cells.read a) ∧
    (∀ i, (structuralError s i).isSome = true → exec i s = .next t → 2 ≤ a →
      t.out.cells.read a = s.out.cells.read a) ∧
    (∀ g c, exec (.err g c) s = .next t → 2 ≤ a → t.out.cells.read a = s.out.cells.read a)

/-! ## The adapter and the registration slot -/

/-- ADAPT_READ: with no work buffer InvalidAddress, some value, and no call; else exactly one call of romRead, whose status
comes back unchanged, with its value on Ok and some value otherwise (R151). Decisions: D30 (the spec's own), log entry 9. -/
def Obligations.AdaptReadCallsTheProviderOnce : Prop :=
  (∀ (a : Addr) (s : State), ∃ v : Value, exec (.adaptRead false a) s = .next
    { s with result := .read (.error .invalidAddress) v, freeCount := s.freeCount + 1 }) ∧
  (∀ (a : Addr) (v : Value) (s : State), s.reg.provValid = true → s.readOk a v = true →
    exec (.adaptRead true a) s = .next
      { s with
        readAnswers := s.readAnswers.tail
        history := s.history ++ [.read s.reg.romRead a (s.readAnswer a)]
        result := .read .ok v }) ∧
  (∀ (a : Addr) (c : ErrorCode) (s : State), s.reg.provValid = true → s.readFails a c = true →
    ∃ v : Value, exec (.adaptRead true a) s = .next
      { s with
        readAnswers := s.readAnswers.tail
        history := s.history ++ [.read s.reg.romRead a (s.readAnswer a)]
        result := .read (.error c) v
        freeCount := s.freeCount + 1 }) ∧
  (∀ (a : Addr) (s : State), s.reg.provValid = false →
    exec (.adaptRead true a) s = .refused .providerNotRegistered)

/-- ADAPT_WRITE: with no work buffer InvalidAddress and no call; else exactly one call of romWrite with the address and the
value, whose status comes back unchanged (R152). Decision: D30 (the spec's own). -/
def Obligations.AdaptWriteCallsTheProviderOnce : Prop :=
  (∀ (a : Addr) (v : Value) (s : State), exec (.adaptWrite false a v) s = .next
    { s with result := .write (.error .invalidAddress) }) ∧
  (∀ (a : Addr) (v : Value) (st : Status) (s : State), s.reg.provValid = true → s.writeGives a v st = true →
    exec (.adaptWrite true a v) s = .next
      { s with
        writeAnswers := s.writeAnswers.tail
        history := s.history ++ [.write s.reg.romWrite a v (s.writeAnswer a v)]
        result := .write st }) ∧
  (∀ (a : Addr) (v : Value) (s : State), s.reg.provValid = false →
    exec (.adaptWrite true a v) s = .refused .providerNotRegistered)

/-- REGISTER: with both provider primitives the whole slot is written and the result is 1; with one missing nothing is
registered and the result is 0 (R156, R157). Decision: D13 (the spec's own). -/
def Obligations.RegisterNeedsBothPrimitives : Prop :=
  (∀ (r w : Ref) (f c : Option Ref) (s : State),
    exec (.register (some r) (some w) f c) s = .next
      { s with
        reg := { provValid := true, fwValid := f.isSome, cmdValid := c.isSome,
                 romRead := some r, romWrite := some w, fw := f, cmd := c }
        result := .registered true }) ∧
  (∀ (r w f c : Option Ref) (s : State), r = none ∨ w = none →
    exec (.register r w f c) s = .next { s with result := .registered false })

/-! ## The encoders and the codec -/

/-- ENC_EVENT: 0x20, the event id and the payload, five bytes, for all operands (R172). -/
def Obligations.EncEventBuildsFiveBytes : Prop :=
  ∀ (eventId payload : Half) (s : State), s.eout.room.holds 5 = true →
    exec (.encEvent eventId payload) s = .next
      { s with
        eout := { s.eout with cells := s.eout.cells.writeBytes 0 (0x20 :: (be16 eventId ++ be16 payload)) }
        result := .length 5 }

/-- ENC_START: the event with id 0 whose payload is the count clamped at 0 and truncated to 16 bits (R171). Decision: D17 (the
spec's own), the count has 32 bits. -/
def Obligations.EncStartClampsThenTruncates : Prop :=
  ∀ (resetCount : Word) (s : State), s.eout.room.holds 5 = true →
    exec (.encStart resetCount) s = .next
      { s with
        eout := { s.eout with
          cells := s.eout.cells.writeBytes 0
            (0x20 :: 0x00 :: 0x00 :: be16 (BitVec.ofInt 16 (max resetCount.toInt 0))) }
        result := .length 5 }

/-- ENC_PAIR: the pair-event tag, the parameter id, the value and the difference, eight bytes (R173). -/
def Obligations.EncPairBuildsEightBytes : Prop :=
  ∀ (parameterId : Byte) (value : Word) (diff : Half) (s : State), s.eout.room.holds 8 = true →
    exec (.encPair parameterId value diff) s = .next
      { s with
        eout := { s.eout with
          cells := s.eout.cells.writeBytes 0
            (s.cfg.pairEventTag.val :: parameterId :: (be32 value ++ be16 diff)) }
        result := .length 8 }

/-- ENC_SHORT with a parameter number of at most 63 and reads that are all answered Ok: the seven-byte core, then one block for
each address of the packed word in its order, each value read once (R176). -/
def Obligations.EncShortAppendsTheBlocksInOrder : Prop :=
  ∀ (payload : Word) (number : Byte) (schedule : Half) (packed : Word) (as : List SixBit) (vs : List Value) (s : State),
    s.eout.room.holds 32 = true → number.toNat ≤ 63 →
    as = ((List.range 5).map (packedField packed)).takeWhile (· ≠ 0) →
    (as ≠ [] → s.reg.provValid = true) → additionalReadsOk as vs s = true →
    exec (.encShort payload number schedule packed) s = .next
      { afterAdditionalReads as s with
        eout := { s.eout with
          cells := s.eout.cells.writeBytes 0
            ((0x80 ||| number) :: (be16 schedule ++ be32 payload) ++ blockBytes as vs) }
        result := .length (7 + 5 * as.length) }

/-- ENC_SHORT rejects a parameter number over 63: the result is 0, nothing is written and nothing is read (R176). Decision: D18
(the spec's own), EOUT is untouched. -/
def Obligations.EncShortRejectsLargeNumbers : Prop :=
  ∀ (payload : Word) (number : Byte) (schedule : Half) (packed : Word) (s : State),
    s.eout.room.holds 32 = true → 63 < number.toNat →
    exec (.encShort payload number schedule packed) s = .next { s with result := .length 0 }

/-- What an encoder leaves as it was: the block's state, IN, OUT, the configuration, what the host has handed over, the answers of
romWrite and of the handlers; the bytes of EOUT from its message's end on; and, but for ENC_SHORT, the answers of romRead,
the history and the free words (R170, R178). Decision: D11 (the spec's own, R58, U22; log entry 13), bytes of EOUT that no step
writes keep what they held. -/
def Obligations.EncodersChangeOnlyTheirMessage : Prop :=
  ∀ (i : Instr) (n : Nat) (s t : State),
    ((∃ e p, i = .encEvent e p ∧ n = 5) ∨ (∃ r, i = .encStart r ∧ n = 5) ∨ (∃ p v d, i = .encPair p v d ∧ n = 8) ∨
      (∃ p m d k, i = .encShort p m d k ∧ n = 7 + 5 * (unpackAddresses k).length)) →
    exec i s = .next t →
    t.reg = s.reg ∧ t.sch = s.sch ∧ t.psch = s.psch ∧ t.cfg = s.cfg ∧ t.input = s.input ∧ t.out = s.out ∧
    t.eout.room = s.eout.room ∧ t.inOutOverlap = s.inOutOverlap ∧ t.pending = s.pending ∧
    t.writeAnswers = s.writeAnswers ∧ t.firmwareAnswers = s.firmwareAnswers ∧
    t.commandAnswers = s.commandAnswers ∧ t.freeCount = s.freeCount ∧
    (∀ a : Nat, n ≤ a → t.eout.cells.read a = s.eout.cells.read a) ∧
    ((∃ p m d k, i = .encShort p m d k) ∨ (t.readAnswers = s.readAnswers ∧ t.history = s.history))

/-- APC_DECODE in its closed form: the fields from the lowest on, up to the first that is 0, at most five (R191, and the closed
form of R190, an inference the spec marks as its own). -/
def Obligations.ApcDecodeListsTheFields : Prop :=
  ∀ (packed : Word) (s : State), exec (.apcDecode packed) s = .next
    { s with result := .addresses (((List.range 5).map (packedField packed)).takeWhile (· ≠ 0)) }

/-- APC_DECODE as its loop says: the j-th address is the low six bits of the word shifted right arithmetically j times by six,
none is 0, there are at most five, and when there are fewer, the next six bits are 0; so address 0 cannot be expressed and no
zero field is skipped (R190, R192). -/
def Obligations.ApcDecodeStopsAtTheFirstZero : Prop :=
  ∀ (packed : Word) (s : State), ∃ l : List SixBit,
    exec (.apcDecode packed) s = .next { s with result := .addresses l } ∧ l.length ≤ 5 ∧
    (∀ (j : Nat) (h : j < l.length),
      (l[j].toNat : Int) = (packed.toInt / 2 ^ (6 * j)) % 64 ∧ 1 ≤ l[j].toNat ∧ l[j].toNat ≤ 63) ∧
    (l.length < 5 → (packed.toInt / 2 ^ (6 * l.length)) % 64 = 0)

/-- A word made of k addresses from 1 to 63, k at most 5, as the sum of a_j · 2^(6j), with any value in bits 31 and 30 and, when
k is below 5, field k equal to 0 and anything above it, decodes to those addresses in that order (R193, an inference the
spec marks as its own). -/
def Obligations.PackedWordDecodesToItsAddresses : Prop :=
  ∀ (l : List SixBit) (high : Nat) (s : State), l.length ≤ 5 → (∀ a ∈ l, a ≠ 0) →
    (l.length < 5 → high % 64 = 0) →
    exec (.apcDecode (BitVec.ofNat 32
      (l.foldr (fun a acc => a.toNat + 64 * acc) high))) s = .next { s with result := .addresses l }

/-! ## The schedulers -/

/-- SCH_POLL on operands in their ranges: it fires exactly when the minute is divisible by the period and the latch is clear;
the latch is then set, and a minute that is not divisible clears it (R200). Decision: D21 (the spec's own). -/
def Obligations.SchPollFiresOncePerDivisibleMinute : Prop :=
  ∀ (hour minute : Byte) (schedule : Half) (s : State),
    hour.toNat ≤ 23 → minute.toNat ≤ 59 → 1 ≤ schedule.toNat → schedule.toNat ≤ 1440 →
    exec (.schPoll hour minute schedule) s = .next
      { s with
        sch := { latch := decide ((60 * hour.toNat + minute.toNat) % (1440 / schedule.toNat) = 0) }
        result := .fire
          (decide ((60 * hour.toNat + minute.toNat) % (1440 / schedule.toNat) = 0) && !s.sch.latch) }

/-- SCH with a schedule from 721 to 1440: a poll with the latch clear fires and sets it, and with the latch set no poll fires or
clears it, so it fires once and never again (R203, 90_conflicts.md C1). -/
def Obligations.SchPeriodOneFiresOnce : Prop :=
  ∀ (hour minute : Byte) (schedule : Half) (s : State),
    hour.toNat ≤ 23 → minute.toNat ≤ 59 → 721 ≤ schedule.toNat → schedule.toNat ≤ 1440 →
    exec (.schPoll hour minute schedule) s = .next
      { s with sch := { latch := true }, result := .fire (!s.sch.latch) }

/-- SCH over a day of two polls a minute, from a clear latch, with a period of at least 2: the fires are as many as the
multiples of the period from 0 to 1439, which is the schedule when it divides 1440, and the latch is clear at the end (R202,
R204; an inference the spec marks as its own). -/
def Obligations.SchDayFiresOncePerPeriod : Prop :=
  ∀ (schedule : Half) (s : State), s.sch.latch = false → 1 ≤ schedule.toNat → schedule.toNat ≤ 720 →
    ∃ (fires : List Bool) (t : State), pollAll (schDay schedule) s = some (fires, t) ∧
      fires.count true = 1439 / (1440 / schedule.toNat) + 1 ∧
      (schedule.toNat ∣ 1440 → fires.count true = schedule.toNat) ∧ t.sch.latch = false

/-- PSCH_POLL on operands in their ranges: an hour below LASTHOUR clears WAIT, the hour is kept, and then, when NEXT has been
reached with WAIT clear, it fires and advances NEXT by the period, less a day with WAIT set when that reaches a day (R210,
R211). Decision: D22 (the spec's own). -/
def Obligations.PschPollFiresWhenNextIsReached : Prop :=
  ∀ (hour minute second : Byte) (schedule : Half) (s : State),
    hour.toNat ≤ 23 → minute.toNat ≤ 59 → second.toNat ≤ 59 → 1 ≤ schedule.toNat →
    ∀ (now period next : Nat) (waiting : Bool),
      now = 3600 * hour.toNat + 60 * minute.toNat + second.toNat → period = 86400 / schedule.toNat →
      next = s.psch.next.toNat → waiting = (s.psch.wait && decide (s.psch.lastHour.toNat ≤ hour.toNat)) →
      (next ≤ now → waiting = false → 86400 ≤ next + period →
        exec (.pschPoll hour minute second schedule) s = .next
          { s with
            psch := { next := BitVec.ofNat 32 (next + period - 86400), wait := true, lastHour := hour }
            result := .fire true }) ∧
      (next ≤ now → waiting = false → next + period < 86400 →
        exec (.pschPoll hour minute second schedule) s = .next
          { s with
            psch := { next := BitVec.ofNat 32 (next + period), wait := false, lastHour := hour }
            result := .fire true }) ∧
      (now < next ∨ waiting = true →
        exec (.pschPoll hour minute second schedule) s = .next
          { s with
            psch := { next := s.psch.next, wait := waiting, lastHour := hour }
            result := .fire false })

/-- NEXT stays below one day across a poll (R212, an inference the spec marks as its own). -/
def Obligations.PschNextStaysBelowOneDay : Prop :=
  ∀ (hour minute second : Byte) (schedule : Half) (s t : State), s.psch.next.toNat < 86400 →
    exec (.pschPoll hour minute second schedule) s = .next t → t.psch.next.toNat < 86400

/-- PSCH over a day of one poll a second, from NEXT = 0 with WAIT clear or a last hour above 0: it fires exactly in the seconds
that are multiples of the period; and when the schedule divides 86400 those are as many as the schedule and the day ends in
NEXT = 0, WAIT = 1, LASTHOUR = 23, from which the next day does the same (R214, an inference the spec marks as its own). -/
def Obligations.PschDayFiresAtEveryPeriod : Prop :=
  ∀ (schedule : Half) (s : State), s.psch.next = 0 → (s.psch.wait = false ∨ 0 < s.psch.lastHour.toNat) →
    1 ≤ schedule.toNat →
    ∃ t : State,
      pollAll (pschDay schedule) s =
        some ((List.range 86400).map (fun n => decide (n % (86400 / schedule.toNat) = 0)), t) ∧
      (schedule.toNat ∣ 86400 →
        ((List.range 86400).map (fun n => decide (n % (86400 / schedule.toNat) = 0))).count true = schedule.toNat ∧
        t.psch = { next := 0, wait := true, lastHour := 23 })

/-- REGISTER, APC_DECODE, SCH_POLL and PSCH_POLL touch no byte space, call nobody and change nothing but the result and their
own state element: REGISTER the slot, SCH_POLL the latch, PSCH_POLL its three values, APC_DECODE none (R50, R55, R157, R190,
R217). -/
def Obligations.OperationsWithoutBuffersTouchNone : Prop :=
  (∀ (r w f c : Option Ref) (s t : State), exec (.register r w f c) s = .next t →
    t = { s with reg := t.reg, result := t.result }) ∧
  (∀ (packed : Word) (s t : State), exec (.apcDecode packed) s = .next t → t = { s with result := t.result }) ∧
  (∀ (hour minute : Byte) (schedule : Half) (s t : State), exec (.schPoll hour minute schedule) s = .next t →
    t = { s with sch := t.sch, result := t.result }) ∧
  (∀ (hour minute second : Byte) (schedule : Half) (s t : State),
    exec (.pschPoll hour minute second schedule) s = .next t →
    t = { s with psch := t.psch, result := t.result })

/-! ## What has no meaning -/

/-- A packet handler, ERR or PARSE whose host breaks a duty is refused: IN and OUT overlapping; OUT shorter than CAP; a packet
longer than MAXLEN; IN with fewer than len readable bytes (R285 (b), (c), (l)). The first three hold of a PARSE whatever IN_VALID
is. Decision: log entry 15, the order of the duties, and that a PARSE without input has them too. -/
def Obligations.BrokenParseDutiesAreRefused : Prop :=
  (∀ (i : Instr) (bs : List Byte) (s : State),
    (encode i = some bs ∨ (∃ v, i = .parse v bs.length) ∨ (∃ g c, i = .err g c ∧ bs.length = 1)) →
    (s.inOutOverlap = true → exec i s = .refused .inOutOverlap) ∧
    (s.inOutOverlap = false → s.out.room.holds s.cfg.cap.val = false → exec i s = .refused .outTooSmall) ∧
    (s.inOutOverlap = false → s.out.room.holds s.cfg.cap.val = true → s.cfg.maxLen < bs.length →
      exec i s = .refused .inputTooLong)) ∧
  (∀ (len : Nat) (s : State), s.parseReady len = true → s.input.readRange 0 len = none →
    exec (.parse true len) s = .refused .inputUnreadable)

/-- An encoder with an EOUT shorter than its minimum is refused: five bytes for ENC_START and ENC_EVENT, eight for ENC_PAIR, 32
for ENC_SHORT (R285 (c), R53). -/
def Obligations.ShortEoutIsRefused : Prop :=
  ∀ s : State,
    (∀ e p, s.eout.room.holds 5 = false → exec (.encEvent e p) s = .refused .eoutTooSmall) ∧
    (∀ r, s.eout.room.holds 5 = false → exec (.encStart r) s = .refused .eoutTooSmall) ∧
    (∀ p v d, s.eout.room.holds 8 = false → exec (.encPair p v d) s = .refused .eoutTooSmall) ∧
    (∀ p m d k, s.eout.room.holds 32 = false → exec (.encShort p m d k) s = .refused .eoutTooSmall)

/-- A provider call that would be made while PROV_VALID = 0 is refused: RDM and WRM with count above 0, RDS,
WRS, ENC_SHORT with a first field above 0 (R159, R285 (d)). Decision: D12 (the spec's own). -/
def Obligations.UnregisteredProviderIsRefused : Prop :=
  ∀ s : State, s.reg.provValid = false →
    (∀ start count, s.parseReady 5 = true → 5 + 4 * count.toNat ≤ s.cfg.cap.val → 0 < count.toNat →
      exec (.rdm (.valid ⟨start, count⟩)) s = .refused .providerNotRegistered) ∧
    (∀ start vs, s.parseReady (5 + 4 * vs.length) = true → vs ≠ [] →
      exec (.wrm (.valid ⟨start, vs⟩)) s = .refused .providerNotRegistered) ∧
    (∀ a, s.parseReady 3 = true → exec (.rds (.valid a)) s = .refused .providerNotRegistered) ∧
    (∀ a v, s.parseReady 7 = true → exec (.wrs (.valid ⟨a, v⟩)) s = .refused .providerNotRegistered) ∧
    (∀ p m d k, s.eout.room.holds 32 = true → m.toNat ≤ 63 → packedField k 0 ≠ 0 →
      exec (.encShort p m d k) s = .refused .providerNotRegistered)

/-- An operation whose provider or handler breaks its duties in a call is refused: it re-enters the block, touches a buffer it
may not touch, answers a status over 6, stores at an offset of CAP or more, or reports more than CAP bytes; in RDM, WRM and
ENC_SHORT it may be any call that the operation makes after the ones answered Ok (R285 (a), (e), (f), (g)). Decision: log entry
5, how a broken duty shows. -/
def Obligations.BrokenCollaboratorDutiesAreRefused : Prop :=
  ∀ s : State,
    (∀ a, s.parseReady 3 = true → s.reg.provValid = true → readAnswerProper (s.readAnswer a) = false →
      ∃ r, exec (.rds (.valid a)) s = .refused r) ∧
    (∀ a v, s.parseReady 7 = true → s.reg.provValid = true → writeAnswerProper (s.writeAnswer a v) = false →
      ∃ r, exec (.wrs (.valid ⟨a, v⟩)) s = .refused r) ∧
    (∀ (start : Addr) (count : Half) (vs : List Value),
      s.parseReady 5 = true → 5 + 4 * count.toNat ≤ s.cfg.cap.val → vs.length < count.toNat →
      s.reg.provValid = true → readsOk start vs 0 s = true →
      readAnswerProper ((afterReads start vs.length 0 s).readAnswer (addrAt start vs.length)) = false →
      ∃ r, exec (.rdm (.valid ⟨start, count⟩)) s = .refused r) ∧
    (∀ (start : Addr) (vs more : List Value) (v : Value),
      s.parseReady (5 + 4 * (vs ++ v :: more).length) = true → (vs ++ v :: more).length < 65536 →
      s.reg.provValid = true → writesOk start vs 0 s = true →
      writeAnswerProper ((afterWrites start vs 0 s).writeAnswer (addrAt start vs.length) v) = false →
      ∃ r, exec (.wrm (.valid ⟨start, vs ++ v :: more⟩)) s = .refused r) ∧
    (∀ body, s.parseReady (body.length + 1) = true → s.reg.fwValid = true →
      handlerAnswerProper s.cfg.cap.val (s.firmwareAnswer (0x29 :: body)) = false →
      ∃ r, exec (.fwu (.valid body)) s = .refused r) ∧
    (∀ body, s.parseReady (body.length + 1) = true → s.reg.cmdValid = true →
      handlerAnswerProper s.cfg.cap.val (s.commandAnswer (0x27 :: body)) = false →
      ∃ r, exec (.ctl (.valid body)) s = .refused r) ∧
    (∀ (payload : Word) (number : Byte) (schedule : Half) (packed : Word) (as more : List SixBit) (a : SixBit)
      (vs : List Value),
      s.eout.room.holds 32 = true → number.toNat ≤ 63 → s.reg.provValid = true →
      unpackAddresses packed = as ++ a :: more → additionalReadsOk as vs s = true →
      readAnswerProper ((afterAdditionalReads as s).readAnswer (additionalAddr a)) = false →
      ∃ r, exec (.encShort payload number schedule packed) s = .refused r) ∧
    (∀ a, s.reg.provValid = true → readAnswerProper (s.readAnswer a) = false →
      ∃ r, exec (.adaptRead true a) s = .refused r) ∧
    (∀ a v, s.reg.provValid = true → writeAnswerProper (s.writeAnswer a v) = false →
      ∃ r, exec (.adaptWrite true a v) s = .refused r)

/-- ENC_SHORT whose read of the additional parameter after these ones fails is refused (R176, R285 (h)). Decision: D19 (the spec's
own). -/
def Obligations.EncShortRefusesAFailingRead : Prop :=
  ∀ (payload : Word) (number : Byte) (schedule : Half) (packed : Word) (as more : List SixBit) (a : SixBit)
    (vs : List Value) (c : ErrorCode) (s : State),
    s.eout.room.holds 32 = true → number.toNat ≤ 63 → s.reg.provValid = true →
    unpackAddresses packed = as ++ a :: more → additionalReadsOk as vs s = true →
    (afterAdditionalReads as s).readFails (additionalAddr a) c = true →
    exec (.encShort payload number schedule packed) s = .refused .additionalReadFailed

/-- A scheduler poll outside its domain is refused: a time outside the calendar ranges; SCH with a schedule of 0 or over 1440;
PSCH with a schedule of 0 (R203, R215, R218, R285 (i) to (k)). Decisions: D21, D22, D29 (the spec's own); log entry 15, a poll
looks at the time before the schedule, so a time out of range is named whatever the schedule. -/
def Obligations.PollsOutsideTheirDomainAreRefused : Prop :=
  ∀ (hour minute second : Byte) (schedule : Half) (s : State),
    (23 < hour.toNat ∨ 59 < minute.toNat → exec (.schPoll hour minute schedule) s = .refused .timeOutOfRange) ∧
    (23 < hour.toNat ∨ 59 < minute.toNat ∨ 59 < second.toNat →
      exec (.pschPoll hour minute second schedule) s = .refused .timeOutOfRange) ∧
    (hour.toNat ≤ 23 → minute.toNat ≤ 59 → schedule.toNat = 0 ∨ 1440 < schedule.toNat →
      exec (.schPoll hour minute schedule) s = .refused .schScheduleOutOfRange) ∧
    (hour.toNat ≤ 23 → minute.toNat ≤ 59 → second.toNat ≤ 59 → schedule.toNat = 0 →
      exec (.pschPoll hour minute second schedule) s = .refused .pschScheduleZero)
end

