-- ==== Sys2Proof/Laws/Encoding.lean ====
section
/-! SUPPORT. Byte order and field assembly: taking a field apart and putting it together again are inverse to each other. -/

namespace Sys2Proof

open Machine

theorem u16_be16 (v : Half) : u16 (v.extractLsb' 8 8) (v.extractLsb' 0 8) = v := by
  apply BitVec.eq_of_toNat_eq
  simp only [u16, BitVec.extractLsb'_toNat, BitVec.toNat_ofNat, Nat.shiftRight_eq_div_pow]
  have := v.isLt
  omega

theorem be16_u16 (b0 b1 : Byte) : be16 (u16 b0 b1) = [b0, b1] := by
  have h0 := b0.isLt
  have h1 := b1.isLt
  simp only [be16, List.cons.injEq, and_true]
  constructor <;> apply BitVec.eq_of_toNat_eq <;>
  · simp only [u16, BitVec.extractLsb'_toNat, BitVec.toNat_ofNat, Nat.shiftRight_eq_div_pow]
    omega

theorem s32_be32 (v : Word) :
    s32 (v.extractLsb' 24 8) (v.extractLsb' 16 8) (v.extractLsb' 8 8) (v.extractLsb' 0 8) = v := by
  apply BitVec.eq_of_toNat_eq
  simp only [s32, BitVec.extractLsb'_toNat, BitVec.toNat_ofNat, Nat.shiftRight_eq_div_pow]
  have := v.isLt
  omega

theorem be32_s32 (b0 b1 b2 b3 : Byte) : be32 (s32 b0 b1 b2 b3) = [b0, b1, b2, b3] := by
  have h0 := b0.isLt
  have h1 := b1.isLt
  have h2 := b2.isLt
  have h3 := b3.isLt
  simp only [be32, List.cons.injEq, and_true]
  refine ⟨?_, ?_, ?_, ?_⟩ <;> apply BitVec.eq_of_toNat_eq <;>
  · simp only [s32, BitVec.extractLsb'_toNat, BitVec.toNat_ofNat, Nat.shiftRight_eq_div_pow]
    omega

@[simp] theorem encodeValues_length (vs : List Value) : (encodeValues vs).length = 4 * vs.length := by
  induction vs with
  | nil => rfl
  | cons v vs ih => simp [encodeValues, be32, ih]; omega

@[simp] theorem wrmValues_encodeValues (vs : List Value) : wrmValues (encodeValues vs) = vs := by
  induction vs with
  | nil => rfl
  | cons v vs ih => simp [encodeValues, be32, wrmValues, s32_be32, ih]

/-- Value bytes of a whole number of values are the bytes of as many values. -/
theorem encodeValues_wrmValues {n : Nat} {bs : List Byte} (h : bs.length = 4 * n) :
    encodeValues (wrmValues bs) = bs ∧ (wrmValues bs).length = n := by
  induction n generalizing bs with
  | zero =>
    obtain rfl : bs = [] := by simpa using h
    simp [wrmValues, encodeValues]
  | succ n ih =>
    match bs, h with
    | b0 :: b1 :: b2 :: b3 :: more, h =>
      obtain ⟨h1, h2⟩ := ih (bs := more) (by simp only [List.length_cons] at h; omega)
      simp [wrmValues, encodeValues, be32_s32, h1, h2]
    | [], h => simp at h
    | [_], h => simp at h; omega
    | [_, _], h => simp at h; omega
    | [_, _, _], h => simp at h; omega

/-- The tag map backwards: the six tags, and every other byte for `unk`. -/
theorem classify_eq {tag : Byte} {h : Handler} (e : classify tag = h) :
    match h with
    | .rdm => tag = 0x03
    | .wrs => tag = 0x06
    | .rds => tag = 0x07
    | .wrm => tag = 0x10
    | .ctl => tag = 0x27
    | .fwu => tag = 0x29
    | .unk => tag ≠ 0x03 ∧ tag ≠ 0x06 ∧ tag ≠ 0x07 ∧ tag ≠ 0x10 ∧ tag ≠ 0x27 ∧ tag ≠ 0x29 := by
  unfold classify at e
  split at e <;> subst e
  · exact BitVec.eq_of_toNat_eq (by assumption)
  · exact BitVec.eq_of_toNat_eq (by assumption)
  · exact BitVec.eq_of_toNat_eq (by assumption)
  · exact BitVec.eq_of_toNat_eq (by assumption)
  · exact BitVec.eq_of_toNat_eq (by assumption)
  · exact BitVec.eq_of_toNat_eq (by assumption)
  · refine ⟨?_, ?_, ?_, ?_, ?_, ?_⟩ <;> rintro rfl <;> simp_all

end Sys2Proof
end

