-- ==== Sys2Proof/Laws/Memory.lean ====
section
/-! SUPPORT. The laws of a byte space: read after write, and the canonical form that every operation keeps. -/

namespace Sys2Proof.Machine

@[simp] theorem Memory.read_nil (a : Nat) : Memory.read [] a = none := rfl

theorem Memory.read_cons (k a : Nat) (b : Byte) (m : Memory) :
    Memory.read ((k, b) :: m) a = if a = k then some b else Memory.read m a := rfl

@[simp] theorem Memory.read_write_same (m : Memory) (a : Nat) (b : Byte) :
    Memory.read (Memory.write m a b) a = some b := by
  induction m with
  | nil => simp [Memory.write, Memory.read_cons]
  | cons c m ih =>
    obtain ⟨k, d⟩ := c
    unfold Memory.write
    split
    · simp [Memory.read_cons]
    · split
      · simp [Memory.read_cons]
      · rename_i h
        simp [Memory.read_cons, h, ih]

theorem Memory.read_write_other (m : Memory) {a x : Nat} (b : Byte) (h : x ≠ a) :
    Memory.read (Memory.write m a b) x = Memory.read m x := by
  induction m with
  | nil => simp [Memory.write, Memory.read_cons, h]
  | cons c m ih =>
    obtain ⟨k, d⟩ := c
    unfold Memory.write
    split
    · simp [Memory.read_cons, h]
    · split
      · subst k
        simp [Memory.read_cons, h]
      · simp [Memory.read_cons, ih]

@[simp] theorem Memory.writeBytes_nil (m : Memory) (a : Nat) : Memory.writeBytes m a [] = m := rfl

theorem Memory.writeBytes_cons (m : Memory) (a : Nat) (b : Byte) (bs : List Byte) :
    Memory.writeBytes m a (b :: bs) = Memory.writeBytes (Memory.write m a b) (a + 1) bs := rfl

/-- Storing two sequences one after the other is storing them as one. -/
theorem Memory.writeBytes_append (m : Memory) (a : Nat) (bs cs : List Byte) :
    Memory.writeBytes m a (bs ++ cs) = Memory.writeBytes (Memory.writeBytes m a bs) (a + bs.length) cs := by
  induction bs generalizing m a with
  | nil => rfl
  | cons b bs ih =>
    rw [List.cons_append, writeBytes_cons, writeBytes_cons, ih, List.length_cons]
    congr 1
    omega

/-- A byte outside the stored ones reads as before. -/
theorem Memory.read_writeBytes_outside (m : Memory) (a : Nat) (bs : List Byte) {x : Nat}
    (h : x < a ∨ a + bs.length ≤ x) : Memory.read (Memory.writeBytes m a bs) x = Memory.read m x := by
  induction bs generalizing m a with
  | nil => rfl
  | cons b bs ih =>
    simp only [List.length_cons] at h
    rw [writeBytes_cons, ih _ _ (by omega), read_write_other _ _ (by omega)]

/-- A stored byte reads as what was stored. -/
theorem Memory.read_writeBytes_inside (m : Memory) (a : Nat) (bs : List Byte) {i : Nat} (h : i < bs.length) :
    Memory.read (Memory.writeBytes m a bs) (a + i) = some bs[i] := by
  induction bs generalizing m a i with
  | nil => simp at h
  | cons b bs ih =>
    rw [writeBytes_cons]
    cases i with
    | zero =>
      rw [read_writeBytes_outside _ _ _ (by omega)]
      simp
    | succ i =>
      have h' : i < bs.length := by simpa using h
      have e : a + (i + 1) = a + 1 + i := by omega
      rw [e, ih _ _ h', List.getElem_cons_succ]

/-- A byte at whose offset nothing is stored reads as before. -/
theorem Memory.read_writeCells_other (m : Memory) (cs : List Host.Cell) {x : Nat} (h : ∀ c ∈ cs, c.1 ≠ x) :
    Memory.read (Memory.writeCells m cs) x = Memory.read m x := by
  induction cs generalizing m with
  | nil => rfl
  | cons c cs ih =>
    obtain ⟨a, b⟩ := c
    unfold Memory.writeCells
    rw [ih _ (fun c hc => h c (List.mem_cons_of_mem _ hc)), read_write_other]
    exact fun e => h (a, b) List.mem_cons_self e.symm

theorem Memory.risesAbove_write {k a : Nat} (m : Memory) (b : Byte) (h : Memory.risesAbove k m = true) (hk : k < a) :
    Memory.risesAbove k (Memory.write m a b) = true := by
  induction m generalizing k with
  | nil => simp [Memory.write, Memory.risesAbove, hk]
  | cons c m ih =>
    obtain ⟨k', d⟩ := c
    simp only [Memory.risesAbove, Bool.and_eq_true, decide_eq_true_eq] at h
    unfold Memory.write
    split
    · rename_i h1
      simp [Memory.risesAbove, hk, h1, h.2]
    · split
      · rename_i h2
        subst h2
        simp [Memory.risesAbove, hk, h.2]
      · simp only [Memory.risesAbove, Bool.and_eq_true, decide_eq_true_eq]
        exact ⟨h.1, ih h.2 (by omega)⟩

/-- A store keeps the canonical form. -/
theorem Memory.wf_write (m : Memory) (a : Nat) (b : Byte) (h : Memory.wf m = true) :
    Memory.wf (Memory.write m a b) = true := by
  cases m with
  | nil => rfl
  | cons c m =>
    obtain ⟨k, d⟩ := c
    simp only [Memory.wf] at h
    unfold Memory.write
    split
    · rename_i h1
      simp [Memory.wf, Memory.risesAbove, h1, h]
    · split
      · rename_i h2
        subst h2
        simpa [Memory.wf] using h
      · simp only [Memory.wf]
        exact Memory.risesAbove_write m b h (by omega)

theorem Memory.wf_writeBytes (m : Memory) (a : Nat) (bs : List Byte) (h : Memory.wf m = true) :
    Memory.wf (Memory.writeBytes m a bs) = true := by
  induction bs generalizing m a with
  | nil => exact h
  | cons b bs ih => exact ih _ _ (wf_write m a b h)

theorem Memory.wf_writeCells (m : Memory) (cs : List Host.Cell) (h : Memory.wf m = true) :
    Memory.wf (Memory.writeCells m cs) = true := by
  induction cs generalizing m with
  | nil => exact h
  | cons c cs ih => exact ih _ (wf_write m c.1 c.2 h)

/-- A buffer handed over by the host is in the canonical form. -/
theorem Memory.wf_ofBytes (bs : List Byte) : Memory.wf (Memory.ofBytes bs) = true :=
  wf_writeBytes [] 0 bs rfl

/-- The packet read from IN has the length asked for. -/
theorem Memory.readRange_length {m : Memory} {a n : Nat} {bs : List Byte} (h : Memory.readRange m a n = some bs) :
    bs.length = n := by
  induction n generalizing a bs with
  | zero =>
    simp only [Memory.readRange, Option.some.injEq] at h
    simp [← h]
  | succ n ih =>
    unfold Memory.readRange at h
    split at h
    · cases h
    · split at h
      · cases h
      · rename_i hb
        cases h
        simp [ih hb]

/-- Reading back the bytes that were stored from an offset on. -/
theorem Memory.readRange_writeBytes (m : Memory) (a : Nat) (bs : List Byte) :
    Memory.readRange (Memory.writeBytes m a bs) a bs.length = some bs := by
  induction bs generalizing m a with
  | nil => rfl
  | cons b bs ih =>
    simp only [List.length_cons, Memory.readRange, writeBytes_cons]
    rw [read_writeBytes_outside _ _ _ (by omega), read_write_same, ih]

/-- The bytes the host hands over as IN are what a PARSE of that length reads. -/
theorem Memory.readRange_ofBytes (bs : List Byte) : Memory.readRange (Memory.ofBytes bs) 0 bs.length = some bs :=
  readRange_writeBytes [] 0 bs

end Sys2Proof.Machine
end

