-- ==== Sys2Proof/Laws/State.lean ====
section
/-! SUPPORT. One lemma per field per update of State, so that no proof unfolds a record update, and the lemmas that say which
updates an answer of a collaborator does not see. -/

namespace Sys2Proof.Machine

/-! ### writeOut -/

@[simp] theorem State.writeOut_cfg (s : State) (i : Nat) (bs : List Byte) : (s.writeOut i bs).cfg = s.cfg := rfl
@[simp] theorem State.writeOut_reg (s : State) (i : Nat) (bs : List Byte) : (s.writeOut i bs).reg = s.reg := rfl
@[simp] theorem State.writeOut_sch (s : State) (i : Nat) (bs : List Byte) : (s.writeOut i bs).sch = s.sch := rfl
@[simp] theorem State.writeOut_psch (s : State) (i : Nat) (bs : List Byte) : (s.writeOut i bs).psch = s.psch := rfl
@[simp] theorem State.writeOut_input (s : State) (i : Nat) (bs : List Byte) : (s.writeOut i bs).input = s.input := rfl
@[simp] theorem State.writeOut_out (s : State) (i : Nat) (bs : List Byte) :
    (s.writeOut i bs).out = { s.out with cells := s.out.cells.writeBytes i bs } := rfl
@[simp] theorem State.writeOut_eout (s : State) (i : Nat) (bs : List Byte) : (s.writeOut i bs).eout = s.eout := rfl
@[simp] theorem State.writeOut_inOutOverlap (s : State) (i : Nat) (bs : List Byte) :
    (s.writeOut i bs).inOutOverlap = s.inOutOverlap := rfl
@[simp] theorem State.writeOut_result (s : State) (i : Nat) (bs : List Byte) :
    (s.writeOut i bs).result = s.result := rfl
@[simp] theorem State.writeOut_pending (s : State) (i : Nat) (bs : List Byte) :
    (s.writeOut i bs).pending = s.pending := rfl
@[simp] theorem State.writeOut_readAnswers (s : State) (i : Nat) (bs : List Byte) :
    (s.writeOut i bs).readAnswers = s.readAnswers := rfl
@[simp] theorem State.writeOut_writeAnswers (s : State) (i : Nat) (bs : List Byte) :
    (s.writeOut i bs).writeAnswers = s.writeAnswers := rfl
@[simp] theorem State.writeOut_firmwareAnswers (s : State) (i : Nat) (bs : List Byte) :
    (s.writeOut i bs).firmwareAnswers = s.firmwareAnswers := rfl
@[simp] theorem State.writeOut_commandAnswers (s : State) (i : Nat) (bs : List Byte) :
    (s.writeOut i bs).commandAnswers = s.commandAnswers := rfl
@[simp] theorem State.writeOut_history (s : State) (i : Nat) (bs : List Byte) :
    (s.writeOut i bs).history = s.history := rfl
@[simp] theorem State.writeOut_freeCount (s : State) (i : Nat) (bs : List Byte) :
    (s.writeOut i bs).freeCount = s.freeCount := rfl

/-! ### storeOut -/

@[simp] theorem State.storeOut_cfg (s : State) (stores : List Host.Cell) : (s.storeOut stores).cfg = s.cfg := rfl
@[simp] theorem State.storeOut_reg (s : State) (stores : List Host.Cell) : (s.storeOut stores).reg = s.reg := rfl
@[simp] theorem State.storeOut_sch (s : State) (stores : List Host.Cell) : (s.storeOut stores).sch = s.sch := rfl
@[simp] theorem State.storeOut_psch (s : State) (stores : List Host.Cell) : (s.storeOut stores).psch = s.psch := rfl
@[simp] theorem State.storeOut_input (s : State) (stores : List Host.Cell) :
    (s.storeOut stores).input = s.input := rfl
@[simp] theorem State.storeOut_out (s : State) (stores : List Host.Cell) :
    (s.storeOut stores).out = { s.out with cells := s.out.cells.writeCells stores } := rfl
@[simp] theorem State.storeOut_eout (s : State) (stores : List Host.Cell) : (s.storeOut stores).eout = s.eout := rfl
@[simp] theorem State.storeOut_inOutOverlap (s : State) (stores : List Host.Cell) :
    (s.storeOut stores).inOutOverlap = s.inOutOverlap := rfl
@[simp] theorem State.storeOut_result (s : State) (stores : List Host.Cell) :
    (s.storeOut stores).result = s.result := rfl
@[simp] theorem State.storeOut_pending (s : State) (stores : List Host.Cell) :
    (s.storeOut stores).pending = s.pending := rfl
@[simp] theorem State.storeOut_readAnswers (s : State) (stores : List Host.Cell) :
    (s.storeOut stores).readAnswers = s.readAnswers := rfl
@[simp] theorem State.storeOut_writeAnswers (s : State) (stores : List Host.Cell) :
    (s.storeOut stores).writeAnswers = s.writeAnswers := rfl
@[simp] theorem State.storeOut_firmwareAnswers (s : State) (stores : List Host.Cell) :
    (s.storeOut stores).firmwareAnswers = s.firmwareAnswers := rfl
@[simp] theorem State.storeOut_commandAnswers (s : State) (stores : List Host.Cell) :
    (s.storeOut stores).commandAnswers = s.commandAnswers := rfl
@[simp] theorem State.storeOut_history (s : State) (stores : List Host.Cell) :
    (s.storeOut stores).history = s.history := rfl
@[simp] theorem State.storeOut_freeCount (s : State) (stores : List Host.Cell) :
    (s.storeOut stores).freeCount = s.freeCount := rfl

/-! ### writeEout -/

@[simp] theorem State.writeEout_cfg (s : State) (i : Nat) (bs : List Byte) : (s.writeEout i bs).cfg = s.cfg := rfl
@[simp] theorem State.writeEout_reg (s : State) (i : Nat) (bs : List Byte) : (s.writeEout i bs).reg = s.reg := rfl
@[simp] theorem State.writeEout_sch (s : State) (i : Nat) (bs : List Byte) : (s.writeEout i bs).sch = s.sch := rfl
@[simp] theorem State.writeEout_psch (s : State) (i : Nat) (bs : List Byte) : (s.writeEout i bs).psch = s.psch := rfl
@[simp] theorem State.writeEout_input (s : State) (i : Nat) (bs : List Byte) :
    (s.writeEout i bs).input = s.input := rfl
@[simp] theorem State.writeEout_out (s : State) (i : Nat) (bs : List Byte) : (s.writeEout i bs).out = s.out := rfl
@[simp] theorem State.writeEout_eout (s : State) (i : Nat) (bs : List Byte) :
    (s.writeEout i bs).eout = { s.eout with cells := s.eout.cells.writeBytes i bs } := rfl
@[simp] theorem State.writeEout_inOutOverlap (s : State) (i : Nat) (bs : List Byte) :
    (s.writeEout i bs).inOutOverlap = s.inOutOverlap := rfl
@[simp] theorem State.writeEout_result (s : State) (i : Nat) (bs : List Byte) :
    (s.writeEout i bs).result = s.result := rfl
@[simp] theorem State.writeEout_pending (s : State) (i : Nat) (bs : List Byte) :
    (s.writeEout i bs).pending = s.pending := rfl
@[simp] theorem State.writeEout_readAnswers (s : State) (i : Nat) (bs : List Byte) :
    (s.writeEout i bs).readAnswers = s.readAnswers := rfl
@[simp] theorem State.writeEout_writeAnswers (s : State) (i : Nat) (bs : List Byte) :
    (s.writeEout i bs).writeAnswers = s.writeAnswers := rfl
@[simp] theorem State.writeEout_firmwareAnswers (s : State) (i : Nat) (bs : List Byte) :
    (s.writeEout i bs).firmwareAnswers = s.firmwareAnswers := rfl
@[simp] theorem State.writeEout_commandAnswers (s : State) (i : Nat) (bs : List Byte) :
    (s.writeEout i bs).commandAnswers = s.commandAnswers := rfl
@[simp] theorem State.writeEout_history (s : State) (i : Nat) (bs : List Byte) :
    (s.writeEout i bs).history = s.history := rfl
@[simp] theorem State.writeEout_freeCount (s : State) (i : Nat) (bs : List Byte) :
    (s.writeEout i bs).freeCount = s.freeCount := rfl

/-! ### returns -/

@[simp] theorem State.returns_cfg (s : State) (r : Result) : (s.returns r).cfg = s.cfg := rfl
@[simp] theorem State.returns_reg (s : State) (r : Result) : (s.returns r).reg = s.reg := rfl
@[simp] theorem State.returns_sch (s : State) (r : Result) : (s.returns r).sch = s.sch := rfl
@[simp] theorem State.returns_psch (s : State) (r : Result) : (s.returns r).psch = s.psch := rfl
@[simp] theorem State.returns_input (s : State) (r : Result) : (s.returns r).input = s.input := rfl
@[simp] theorem State.returns_out (s : State) (r : Result) : (s.returns r).out = s.out := rfl
@[simp] theorem State.returns_eout (s : State) (r : Result) : (s.returns r).eout = s.eout := rfl
@[simp] theorem State.returns_inOutOverlap (s : State) (r : Result) :
    (s.returns r).inOutOverlap = s.inOutOverlap := rfl
@[simp] theorem State.returns_result (s : State) (r : Result) : (s.returns r).result = r := rfl
@[simp] theorem State.returns_pending (s : State) (r : Result) : (s.returns r).pending = s.pending := rfl
@[simp] theorem State.returns_readAnswers (s : State) (r : Result) : (s.returns r).readAnswers = s.readAnswers := rfl
@[simp] theorem State.returns_writeAnswers (s : State) (r : Result) :
    (s.returns r).writeAnswers = s.writeAnswers := rfl
@[simp] theorem State.returns_firmwareAnswers (s : State) (r : Result) :
    (s.returns r).firmwareAnswers = s.firmwareAnswers := rfl
@[simp] theorem State.returns_commandAnswers (s : State) (r : Result) :
    (s.returns r).commandAnswers = s.commandAnswers := rfl
@[simp] theorem State.returns_history (s : State) (r : Result) : (s.returns r).history = s.history := rfl
@[simp] theorem State.returns_freeCount (s : State) (r : Result) : (s.returns r).freeCount = s.freeCount := rfl

/-! ### useFree -/

@[simp] theorem State.useFree_cfg (s : State) : s.useFree.cfg = s.cfg := rfl
@[simp] theorem State.useFree_reg (s : State) : s.useFree.reg = s.reg := rfl
@[simp] theorem State.useFree_sch (s : State) : s.useFree.sch = s.sch := rfl
@[simp] theorem State.useFree_psch (s : State) : s.useFree.psch = s.psch := rfl
@[simp] theorem State.useFree_input (s : State) : s.useFree.input = s.input := rfl
@[simp] theorem State.useFree_out (s : State) : s.useFree.out = s.out := rfl
@[simp] theorem State.useFree_eout (s : State) : s.useFree.eout = s.eout := rfl
@[simp] theorem State.useFree_inOutOverlap (s : State) : s.useFree.inOutOverlap = s.inOutOverlap := rfl
@[simp] theorem State.useFree_result (s : State) : s.useFree.result = s.result := rfl
@[simp] theorem State.useFree_pending (s : State) : s.useFree.pending = s.pending := rfl
@[simp] theorem State.useFree_readAnswers (s : State) : s.useFree.readAnswers = s.readAnswers := rfl
@[simp] theorem State.useFree_writeAnswers (s : State) : s.useFree.writeAnswers = s.writeAnswers := rfl
@[simp] theorem State.useFree_firmwareAnswers (s : State) : s.useFree.firmwareAnswers = s.firmwareAnswers := rfl
@[simp] theorem State.useFree_commandAnswers (s : State) : s.useFree.commandAnswers = s.commandAnswers := rfl
@[simp] theorem State.useFree_history (s : State) : s.useFree.history = s.history := rfl
@[simp] theorem State.useFree_freeCount (s : State) : s.useFree.freeCount = s.freeCount + 1 := rfl

/-! ### afterRead -/

@[simp] theorem State.afterRead_cfg (s : State) (a : Addr) : (s.afterRead a).cfg = s.cfg := rfl
@[simp] theorem State.afterRead_reg (s : State) (a : Addr) : (s.afterRead a).reg = s.reg := rfl
@[simp] theorem State.afterRead_sch (s : State) (a : Addr) : (s.afterRead a).sch = s.sch := rfl
@[simp] theorem State.afterRead_psch (s : State) (a : Addr) : (s.afterRead a).psch = s.psch := rfl
@[simp] theorem State.afterRead_input (s : State) (a : Addr) : (s.afterRead a).input = s.input := rfl
@[simp] theorem State.afterRead_out (s : State) (a : Addr) : (s.afterRead a).out = s.out := rfl
@[simp] theorem State.afterRead_eout (s : State) (a : Addr) : (s.afterRead a).eout = s.eout := rfl
@[simp] theorem State.afterRead_inOutOverlap (s : State) (a : Addr) :
    (s.afterRead a).inOutOverlap = s.inOutOverlap := rfl
@[simp] theorem State.afterRead_result (s : State) (a : Addr) : (s.afterRead a).result = s.result := rfl
@[simp] theorem State.afterRead_pending (s : State) (a : Addr) : (s.afterRead a).pending = s.pending := rfl
@[simp] theorem State.afterRead_readAnswers (s : State) (a : Addr) :
    (s.afterRead a).readAnswers = s.readAnswers.tail := rfl
@[simp] theorem State.afterRead_writeAnswers (s : State) (a : Addr) :
    (s.afterRead a).writeAnswers = s.writeAnswers := rfl
@[simp] theorem State.afterRead_firmwareAnswers (s : State) (a : Addr) :
    (s.afterRead a).firmwareAnswers = s.firmwareAnswers := rfl
@[simp] theorem State.afterRead_commandAnswers (s : State) (a : Addr) :
    (s.afterRead a).commandAnswers = s.commandAnswers := rfl
@[simp] theorem State.afterRead_history (s : State) (a : Addr) :
    (s.afterRead a).history = s.history ++ [.read s.reg.romRead a (s.readAnswer a)] := rfl
@[simp] theorem State.afterRead_freeCount (s : State) (a : Addr) : (s.afterRead a).freeCount = s.freeCount := rfl

/-! ### afterWrite -/

@[simp] theorem State.afterWrite_cfg (s : State) (a : Addr) (v : Value) : (s.afterWrite a v).cfg = s.cfg := rfl
@[simp] theorem State.afterWrite_reg (s : State) (a : Addr) (v : Value) : (s.afterWrite a v).reg = s.reg := rfl
@[simp] theorem State.afterWrite_sch (s : State) (a : Addr) (v : Value) : (s.afterWrite a v).sch = s.sch := rfl
@[simp] theorem State.afterWrite_psch (s : State) (a : Addr) (v : Value) : (s.afterWrite a v).psch = s.psch := rfl
@[simp] theorem State.afterWrite_input (s : State) (a : Addr) (v : Value) : (s.afterWrite a v).input = s.input := rfl
@[simp] theorem State.afterWrite_out (s : State) (a : Addr) (v : Value) : (s.afterWrite a v).out = s.out := rfl
@[simp] theorem State.afterWrite_eout (s : State) (a : Addr) (v : Value) : (s.afterWrite a v).eout = s.eout := rfl
@[simp] theorem State.afterWrite_inOutOverlap (s : State) (a : Addr) (v : Value) :
    (s.afterWrite a v).inOutOverlap = s.inOutOverlap := rfl
@[simp] theorem State.afterWrite_result (s : State) (a : Addr) (v : Value) :
    (s.afterWrite a v).result = s.result := rfl
@[simp] theorem State.afterWrite_pending (s : State) (a : Addr) (v : Value) :
    (s.afterWrite a v).pending = s.pending := rfl
@[simp] theorem State.afterWrite_readAnswers (s : State) (a : Addr) (v : Value) :
    (s.afterWrite a v).readAnswers = s.readAnswers := rfl
@[simp] theorem State.afterWrite_writeAnswers (s : State) (a : Addr) (v : Value) :
    (s.afterWrite a v).writeAnswers = s.writeAnswers.tail := rfl
@[simp] theorem State.afterWrite_firmwareAnswers (s : State) (a : Addr) (v : Value) :
    (s.afterWrite a v).firmwareAnswers = s.firmwareAnswers := rfl
@[simp] theorem State.afterWrite_commandAnswers (s : State) (a : Addr) (v : Value) :
    (s.afterWrite a v).commandAnswers = s.commandAnswers := rfl
@[simp] theorem State.afterWrite_history (s : State) (a : Addr) (v : Value) :
    (s.afterWrite a v).history = s.history ++ [.write s.reg.romWrite a v (s.writeAnswer a v)] := rfl
@[simp] theorem State.afterWrite_freeCount (s : State) (a : Addr) (v : Value) :
    (s.afterWrite a v).freeCount = s.freeCount := rfl

/-! ### afterFirmware -/

@[simp] theorem State.afterFirmware_cfg (s : State) (p : List Byte) : (s.afterFirmware p).cfg = s.cfg := rfl
@[simp] theorem State.afterFirmware_reg (s : State) (p : List Byte) : (s.afterFirmware p).reg = s.reg := rfl
@[simp] theorem State.afterFirmware_sch (s : State) (p : List Byte) : (s.afterFirmware p).sch = s.sch := rfl
@[simp] theorem State.afterFirmware_psch (s : State) (p : List Byte) : (s.afterFirmware p).psch = s.psch := rfl
@[simp] theorem State.afterFirmware_input (s : State) (p : List Byte) : (s.afterFirmware p).input = s.input := rfl
@[simp] theorem State.afterFirmware_out (s : State) (p : List Byte) :
    (s.afterFirmware p).out = (s.storeOut (s.firmwareAnswer p).stores).out := rfl
@[simp] theorem State.afterFirmware_eout (s : State) (p : List Byte) : (s.afterFirmware p).eout = s.eout := rfl
@[simp] theorem State.afterFirmware_inOutOverlap (s : State) (p : List Byte) :
    (s.afterFirmware p).inOutOverlap = s.inOutOverlap := rfl
@[simp] theorem State.afterFirmware_result (s : State) (p : List Byte) : (s.afterFirmware p).result = s.result := rfl
@[simp] theorem State.afterFirmware_pending (s : State) (p : List Byte) :
    (s.afterFirmware p).pending = s.pending := rfl
@[simp] theorem State.afterFirmware_readAnswers (s : State) (p : List Byte) :
    (s.afterFirmware p).readAnswers = s.readAnswers := rfl
@[simp] theorem State.afterFirmware_writeAnswers (s : State) (p : List Byte) :
    (s.afterFirmware p).writeAnswers = s.writeAnswers := rfl
@[simp] theorem State.afterFirmware_firmwareAnswers (s : State) (p : List Byte) :
    (s.afterFirmware p).firmwareAnswers = s.firmwareAnswers.tail := rfl
@[simp] theorem State.afterFirmware_commandAnswers (s : State) (p : List Byte) :
    (s.afterFirmware p).commandAnswers = s.commandAnswers := rfl
@[simp] theorem State.afterFirmware_history (s : State) (p : List Byte) :
    (s.afterFirmware p).history = s.history ++ [.firmware s.reg.fw p (s.firmwareAnswer p)] := rfl
@[simp] theorem State.afterFirmware_freeCount (s : State) (p : List Byte) :
    (s.afterFirmware p).freeCount = s.freeCount := rfl

/-! ### afterCommand -/

@[simp] theorem State.afterCommand_cfg (s : State) (p : List Byte) : (s.afterCommand p).cfg = s.cfg := rfl
@[simp] theorem State.afterCommand_reg (s : State) (p : List Byte) : (s.afterCommand p).reg = s.reg := rfl
@[simp] theorem State.afterCommand_sch (s : State) (p : List Byte) : (s.afterCommand p).sch = s.sch := rfl
@[simp] theorem State.afterCommand_psch (s : State) (p : List Byte) : (s.afterCommand p).psch = s.psch := rfl
@[simp] theorem State.afterCommand_input (s : State) (p : List Byte) : (s.afterCommand p).input = s.input := rfl
@[simp] theorem State.afterCommand_out (s : State) (p : List Byte) :
    (s.afterCommand p).out = (s.storeOut (s.commandAnswer p).stores).out := rfl
@[simp] theorem State.afterCommand_eout (s : State) (p : List Byte) : (s.afterCommand p).eout = s.eout := rfl
@[simp] theorem State.afterCommand_inOutOverlap (s : State) (p : List Byte) :
    (s.afterCommand p).inOutOverlap = s.inOutOverlap := rfl
@[simp] theorem State.afterCommand_result (s : State) (p : List Byte) : (s.afterCommand p).result = s.result := rfl
@[simp] theorem State.afterCommand_pending (s : State) (p : List Byte) : (s.afterCommand p).pending = s.pending := rfl
@[simp] theorem State.afterCommand_readAnswers (s : State) (p : List Byte) :
    (s.afterCommand p).readAnswers = s.readAnswers := rfl
@[simp] theorem State.afterCommand_writeAnswers (s : State) (p : List Byte) :
    (s.afterCommand p).writeAnswers = s.writeAnswers := rfl
@[simp] theorem State.afterCommand_firmwareAnswers (s : State) (p : List Byte) :
    (s.afterCommand p).firmwareAnswers = s.firmwareAnswers := rfl
@[simp] theorem State.afterCommand_commandAnswers (s : State) (p : List Byte) :
    (s.afterCommand p).commandAnswers = s.commandAnswers.tail := rfl
@[simp] theorem State.afterCommand_history (s : State) (p : List Byte) :
    (s.afterCommand p).history = s.history ++ [.command s.reg.cmd p (s.commandAnswer p)] := rfl
@[simp] theorem State.afterCommand_freeCount (s : State) (p : List Byte) :
    (s.afterCommand p).freeCount = s.freeCount := rfl

/-! ### accept -/

@[simp] theorem State.accept_cfg (s : State) (c : HostCall) (rest : List HostCall) :
    (s.accept c rest).cfg = s.cfg := rfl
@[simp] theorem State.accept_reg (s : State) (c : HostCall) (rest : List HostCall) :
    (s.accept c rest).reg = s.reg := rfl
@[simp] theorem State.accept_sch (s : State) (c : HostCall) (rest : List HostCall) :
    (s.accept c rest).sch = s.sch := rfl
@[simp] theorem State.accept_psch (s : State) (c : HostCall) (rest : List HostCall) :
    (s.accept c rest).psch = s.psch := rfl
@[simp] theorem State.accept_inOutOverlap (s : State) (c : HostCall) (rest : List HostCall) :
    (s.accept c rest).inOutOverlap = c.inOutOverlap := rfl
@[simp] theorem State.accept_result (s : State) (c : HostCall) (rest : List HostCall) :
    (s.accept c rest).result = s.result := rfl
@[simp] theorem State.accept_pending (s : State) (c : HostCall) (rest : List HostCall) :
    (s.accept c rest).pending = rest := rfl
@[simp] theorem State.accept_readAnswers (s : State) (c : HostCall) (rest : List HostCall) :
    (s.accept c rest).readAnswers = s.readAnswers := rfl
@[simp] theorem State.accept_writeAnswers (s : State) (c : HostCall) (rest : List HostCall) :
    (s.accept c rest).writeAnswers = s.writeAnswers := rfl
@[simp] theorem State.accept_firmwareAnswers (s : State) (c : HostCall) (rest : List HostCall) :
    (s.accept c rest).firmwareAnswers = s.firmwareAnswers := rfl
@[simp] theorem State.accept_commandAnswers (s : State) (c : HostCall) (rest : List HostCall) :
    (s.accept c rest).commandAnswers = s.commandAnswers := rfl
@[simp] theorem State.accept_history (s : State) (c : HostCall) (rest : List HostCall) :
    (s.accept c rest).history = s.history := rfl
@[simp] theorem State.accept_freeCount (s : State) (c : HostCall) (rest : List HostCall) :
    (s.accept c rest).freeCount = s.freeCount := rfl

/-! ### What an answer does not see -/

@[simp] theorem State.readAnswer_writeOut (s : State) (i : Nat) (bs : List Byte) (a : Addr) :
    (s.writeOut i bs).readAnswer a = s.readAnswer a := rfl
@[simp] theorem State.writeAnswer_writeOut (s : State) (i : Nat) (bs : List Byte) (a : Addr) (v : Value) :
    (s.writeOut i bs).writeAnswer a v = s.writeAnswer a v := rfl
@[simp] theorem State.readAnswer_storeOut (s : State) (stores : List Host.Cell) (a : Addr) :
    (s.storeOut stores).readAnswer a = s.readAnswer a := rfl
@[simp] theorem State.writeAnswer_storeOut (s : State) (stores : List Host.Cell) (a : Addr) (v : Value) :
    (s.storeOut stores).writeAnswer a v = s.writeAnswer a v := rfl
@[simp] theorem State.readAnswer_writeEout (s : State) (i : Nat) (bs : List Byte) (a : Addr) :
    (s.writeEout i bs).readAnswer a = s.readAnswer a := rfl
@[simp] theorem State.writeAnswer_writeEout (s : State) (i : Nat) (bs : List Byte) (a : Addr) (v : Value) :
    (s.writeEout i bs).writeAnswer a v = s.writeAnswer a v := rfl
@[simp] theorem State.readAnswer_returns (s : State) (r : Result) (a : Addr) :
    (s.returns r).readAnswer a = s.readAnswer a := rfl
@[simp] theorem State.writeAnswer_returns (s : State) (r : Result) (a : Addr) (v : Value) :
    (s.returns r).writeAnswer a v = s.writeAnswer a v := rfl
@[simp] theorem State.readAnswer_useFree (s : State) (a : Addr) :
    (s.useFree).readAnswer a = s.readAnswer a := rfl
@[simp] theorem State.writeAnswer_useFree (s : State) (a : Addr) (v : Value) :
    (s.useFree).writeAnswer a v = s.writeAnswer a v := rfl
@[simp] theorem State.firmwareAnswer_writeEout (s : State) (i : Nat) (bs : List Byte) (p : List Byte) :
    (s.writeEout i bs).firmwareAnswer p = s.firmwareAnswer p := rfl
@[simp] theorem State.commandAnswer_writeEout (s : State) (i : Nat) (bs : List Byte) (p : List Byte) :
    (s.writeEout i bs).commandAnswer p = s.commandAnswer p := rfl
@[simp] theorem State.firmwareAnswer_returns (s : State) (r : Result) (p : List Byte) :
    (s.returns r).firmwareAnswer p = s.firmwareAnswer p := rfl
@[simp] theorem State.commandAnswer_returns (s : State) (r : Result) (p : List Byte) :
    (s.returns r).commandAnswer p = s.commandAnswer p := rfl
@[simp] theorem State.firmwareAnswer_useFree (s : State) (p : List Byte) :
    (s.useFree).firmwareAnswer p = s.firmwareAnswer p := rfl
@[simp] theorem State.commandAnswer_useFree (s : State) (p : List Byte) :
    (s.useFree).commandAnswer p = s.commandAnswer p := rfl

/-! ### Stores and reads in either order -/

theorem State.afterRead_writeOut (s : State) (i : Nat) (bs : List Byte) (a : Addr) :
    (s.writeOut i bs).afterRead a = (s.afterRead a).writeOut i bs := rfl

theorem State.afterRead_writeEout (s : State) (i : Nat) (bs : List Byte) (a : Addr) :
    (s.writeEout i bs).afterRead a = (s.afterRead a).writeEout i bs := rfl

theorem State.afterWrite_writeOut (s : State) (i : Nat) (bs : List Byte) (a : Addr) (v : Value) :
    (s.writeOut i bs).afterWrite a v = (s.afterWrite a v).writeOut i bs := rfl

theorem State.writeOut_append (s : State) (i : Nat) (bs cs : List Byte) :
    s.writeOut i (bs ++ cs) = (s.writeOut i bs).writeOut (i + bs.length) cs := by
  simp [State.writeOut, Memory.writeBytes_append]

theorem State.writeEout_append (s : State) (i : Nat) (bs cs : List Byte) :
    s.writeEout i (bs ++ cs) = (s.writeEout i bs).writeEout (i + bs.length) cs := by
  simp [State.writeEout, Memory.writeBytes_append]

end Sys2Proof.Machine
end

