-- ==== Sys2Proof/Laws/Ops.lean ====
section
/-! SUPPORT. For each shared operation, one lemma that says what it can do. The effect of a step of a request handler, and that
of a step of an encoder, are each one relation, which composes. -/

namespace Sys2Proof.Machine

/-! ## Two effects -/

/-- What a step of a request handler may change: bytes of OUT below `hi`, the answers still to come, the history by calls of
one kind, the free words, the result. -/
structure PacketEffect (kind : CallEvent → Bool) (hi : Nat) (s t : State) : Prop where
  cfg : t.cfg = s.cfg
  reg : t.reg = s.reg
  sch : t.sch = s.sch
  psch : t.psch = s.psch
  input : t.input = s.input
  eout : t.eout = s.eout
  inOutOverlap : t.inOutOverlap = s.inOutOverlap
  pending : t.pending = s.pending
  room : t.out.room = s.out.room
  calls : ∃ es, t.history = s.history ++ es ∧ ∀ e ∈ es, kind e = true
  canonical : Memory.wf s.out.cells = true → Memory.wf t.out.cells = true
  outside : ∀ x, hi ≤ x → Memory.read t.out.cells x = Memory.read s.out.cells x

/-- What a step of an encoder may change: bytes of EOUT below `hi`, the answers of `romRead` still to come, the history by
reads, the result. -/
structure MessageEffect (hi : Nat) (s t : State) : Prop where
  cfg : t.cfg = s.cfg
  reg : t.reg = s.reg
  sch : t.sch = s.sch
  psch : t.psch = s.psch
  input : t.input = s.input
  out : t.out = s.out
  inOutOverlap : t.inOutOverlap = s.inOutOverlap
  pending : t.pending = s.pending
  room : t.eout.room = s.eout.room
  writeAnswers : t.writeAnswers = s.writeAnswers
  firmwareAnswers : t.firmwareAnswers = s.firmwareAnswers
  commandAnswers : t.commandAnswers = s.commandAnswers
  freeCount : t.freeCount = s.freeCount
  calls : ∃ es, t.history = s.history ++ es ∧ ∀ e ∈ es, ∃ a ans, e = .read s.reg.romRead a ans
  canonical : Memory.wf s.eout.cells = true → Memory.wf t.eout.cells = true
  outside : ∀ x, hi ≤ x → Memory.read t.eout.cells x = Memory.read s.eout.cells x

theorem PacketEffect.refl (kind : CallEvent → Bool) (hi : Nat) (s : State) : PacketEffect kind hi s s :=
  ⟨rfl, rfl, rfl, rfl, rfl, rfl, rfl, rfl, rfl, ⟨[], by simp, by simp⟩, id, fun _ _ => rfl⟩

theorem PacketEffect.trans {kind : CallEvent → Bool} {hi : Nat} {s t u : State} (h : PacketEffect kind hi s t)
    (g : PacketEffect kind hi t u) : PacketEffect kind hi s u := by
  obtain ⟨es, he, hk⟩ := h.calls
  obtain ⟨fs, hf, gk⟩ := g.calls
  exact ⟨g.cfg.trans h.cfg, g.reg.trans h.reg, g.sch.trans h.sch, g.psch.trans h.psch, g.input.trans h.input,
    g.eout.trans h.eout, g.inOutOverlap.trans h.inOutOverlap, g.pending.trans h.pending, g.room.trans h.room,
    ⟨es ++ fs, by rw [hf, he, List.append_assoc], fun e m => (List.mem_append.1 m).elim (hk e) (gk e)⟩,
    g.canonical ∘ h.canonical, fun x hx => (g.outside x hx).trans (h.outside x hx)⟩

theorem PacketEffect.mono {kind : CallEvent → Bool} {hi hi' : Nat} {s t : State} (h : PacketEffect kind hi s t)
    (le : hi ≤ hi') : PacketEffect kind hi' s t :=
  ⟨h.cfg, h.reg, h.sch, h.psch, h.input, h.eout, h.inOutOverlap, h.pending, h.room, h.calls, h.canonical,
    fun x hx => h.outside x (le.trans hx)⟩

theorem MessageEffect.refl (hi : Nat) (s : State) : MessageEffect hi s s :=
  ⟨rfl, rfl, rfl, rfl, rfl, rfl, rfl, rfl, rfl, rfl, rfl, rfl, rfl, ⟨[], by simp, by simp⟩, id, fun _ _ => rfl⟩

theorem MessageEffect.trans {hi : Nat} {s t u : State} (h : MessageEffect hi s t) (g : MessageEffect hi t u) :
    MessageEffect hi s u := by
  obtain ⟨es, he, hk⟩ := h.calls
  obtain ⟨fs, hf, gk⟩ := g.calls
  exact ⟨g.cfg.trans h.cfg, g.reg.trans h.reg, g.sch.trans h.sch, g.psch.trans h.psch, g.input.trans h.input,
    g.out.trans h.out, g.inOutOverlap.trans h.inOutOverlap, g.pending.trans h.pending, g.room.trans h.room,
    g.writeAnswers.trans h.writeAnswers, g.firmwareAnswers.trans h.firmwareAnswers,
    g.commandAnswers.trans h.commandAnswers, g.freeCount.trans h.freeCount,
    ⟨es ++ fs, by rw [hf, he, List.append_assoc], fun e m => (List.mem_append.1 m).elim (hk e) (h.reg ▸ gk e)⟩,
    g.canonical ∘ h.canonical, fun x hx => (g.outside x hx).trans (h.outside x hx)⟩

theorem MessageEffect.mono {hi hi' : Nat} {s t : State} (h : MessageEffect hi s t) (le : hi ≤ hi') :
    MessageEffect hi' s t :=
  ⟨h.cfg, h.reg, h.sch, h.psch, h.input, h.out, h.inOutOverlap, h.pending, h.room, h.writeAnswers,
    h.firmwareAnswers, h.commandAnswers, h.freeCount, h.calls, h.canonical, fun x hx => h.outside x (le.trans hx)⟩

/-! ## The updates -/

theorem writeOut_effect (kind : CallEvent → Bool) (s : State) (i : Nat) (bs : List Byte) {hi : Nat}
    (h : i + bs.length ≤ hi) : PacketEffect kind hi s (s.writeOut i bs) :=
  ⟨rfl, rfl, rfl, rfl, rfl, rfl, rfl, rfl, rfl, ⟨[], by simp, by simp⟩,
    fun w => Memory.wf_writeBytes _ _ _ w,
    fun _ hx => Memory.read_writeBytes_outside _ _ _ (.inr (h.trans hx))⟩

theorem returns_effect (kind : CallEvent → Bool) (hi : Nat) (s : State) (r : Result) :
    PacketEffect kind hi s (s.returns r) :=
  ⟨rfl, rfl, rfl, rfl, rfl, rfl, rfl, rfl, rfl, ⟨[], by simp, by simp⟩, id, fun _ _ => rfl⟩

theorem useFree_effect (kind : CallEvent → Bool) (hi : Nat) (s : State) : PacketEffect kind hi s s.useFree :=
  ⟨rfl, rfl, rfl, rfl, rfl, rfl, rfl, rfl, rfl, ⟨[], by simp, by simp⟩, id, fun _ _ => rfl⟩

theorem afterRead_effect {kind : CallEvent → Bool} {s : State} (hk : ∀ a ans, kind (.read s.reg.romRead a ans) = true)
    (hi : Nat) (a : Addr) : PacketEffect kind hi s (s.afterRead a) :=
  ⟨rfl, rfl, rfl, rfl, rfl, rfl, rfl, rfl, rfl, ⟨_, rfl, by simp [hk]⟩, id, fun _ _ => rfl⟩

theorem afterWrite_effect {kind : CallEvent → Bool} {s : State}
    (hk : ∀ a v ans, kind (.write s.reg.romWrite a v ans) = true) (hi : Nat) (a : Addr) (v : Value) : PacketEffect kind hi s (s.afterWrite a v) :=
  ⟨rfl, rfl, rfl, rfl, rfl, rfl, rfl, rfl, rfl, ⟨_, rfl, by simp [hk]⟩, id, fun _ _ => rfl⟩

theorem afterFirmware_effect {kind : CallEvent → Bool} {s : State}
    (hk : ∀ p ans, kind (.firmware s.reg.fw p ans) = true) {hi : Nat} (p : List Byte) (h : ∀ c ∈ (s.firmwareAnswer p).stores, c.1 < hi) :
    PacketEffect kind hi s (s.afterFirmware p) :=
  ⟨rfl, rfl, rfl, rfl, rfl, rfl, rfl, rfl, rfl, ⟨_, rfl, by simp [hk]⟩,
    fun w => Memory.wf_writeCells _ _ w,
    fun _ hx => Memory.read_writeCells_other _ _ (fun c hc => Nat.ne_of_lt (Nat.lt_of_lt_of_le (h c hc) hx))⟩

theorem afterCommand_effect {kind : CallEvent → Bool} {s : State}
    (hk : ∀ p ans, kind (.command s.reg.cmd p ans) = true) {hi : Nat} (p : List Byte) (h : ∀ c ∈ (s.commandAnswer p).stores, c.1 < hi) :
    PacketEffect kind hi s (s.afterCommand p) :=
  ⟨rfl, rfl, rfl, rfl, rfl, rfl, rfl, rfl, rfl, ⟨_, rfl, by simp [hk]⟩,
    fun w => Memory.wf_writeCells _ _ w,
    fun _ hx => Memory.read_writeCells_other _ _ (fun c hc => Nat.ne_of_lt (Nat.lt_of_lt_of_le (h c hc) hx))⟩

theorem writeEout_effect (s : State) (i : Nat) (bs : List Byte) {hi : Nat} (h : i + bs.length ≤ hi) :
    MessageEffect hi s (s.writeEout i bs) :=
  ⟨rfl, rfl, rfl, rfl, rfl, rfl, rfl, rfl, rfl, rfl, rfl, rfl, rfl, ⟨[], by simp, by simp⟩,
    fun w => Memory.wf_writeBytes _ _ _ w,
    fun _ hx => Memory.read_writeBytes_outside _ _ _ (.inr (h.trans hx))⟩

theorem returns_message (hi : Nat) (s : State) (r : Result) : MessageEffect hi s (s.returns r) :=
  ⟨rfl, rfl, rfl, rfl, rfl, rfl, rfl, rfl, rfl, rfl, rfl, rfl, rfl, ⟨[], by simp, by simp⟩, id, fun _ _ => rfl⟩

theorem afterRead_message (hi : Nat) (s : State) (a : Addr) : MessageEffect hi s (s.afterRead a) :=
  ⟨rfl, rfl, rfl, rfl, rfl, rfl, rfl, rfl, rfl, rfl, rfl, rfl, rfl, ⟨_, rfl, by simp⟩, id, fun _ _ => rfl⟩

/-! ## Byte counts -/

@[simp] theorem be16_length (v : Half) : (be16 v).length = 2 := rfl

@[simp] theorem be32_length (v : Word) : (be32 v).length = 4 := rfl

@[simp] theorem additionalBlock_length (a : SixBit) (v : Value) : (additionalBlock a v).length = 5 := rfl

@[simp] theorem eventMessage_length (a b : Half) : (eventMessage a b).length = 5 := rfl

@[simp] theorem pairMessage_length (a b : Byte) (v : Word) (d : Half) : (pairMessage a b v d).length = 8 := rfl

@[simp] theorem shortCore_length (p : Word) (n : Byte) (d : Half) : (shortCore p n d).length = 7 := rfl

theorem unpackFields_length (n : Nat) (w : Word) : (unpackFields n w).length ≤ n := by
  induction n generalizing w with
  | zero => simp [unpackFields]
  | succ n ih =>
    simp only [unpackFields]
    split
    · simp
    · simpa using ih _

/-! ## The statuses -/

@[simp] theorem statusOfNumber_errorNumber (c : ErrorCode) : statusOfNumber (errorNumber c) = some (.error c) := by
  cases c <;> rfl

@[simp] theorem statusOfNumber_statusNumber (st : Status) : statusOfNumber (statusNumber st) = some st := by
  cases st with
  | ok => rfl
  | error c => exact statusOfNumber_errorNumber c

theorem statusNumber_of_statusOfNumber {b : Byte} {st : Status} (h : statusOfNumber b = some st) :
    b = statusNumber st := by
  unfold statusOfNumber at h
  split at h <;> cases h
  all_goals
    rename_i e
    exact BitVec.eq_of_toNat_eq e

theorem providerStatus_eq_ok {b : Byte} {c : Conduct} {st : Status} :
    providerStatus b c = .ok st ↔ c = .proper ∧ b = statusNumber st := by
  unfold providerStatus
  constructor
  · intro h
    split at h
    · cases h
    · cases h
    · split at h
      · cases h
      · rename_i hs
        cases h
        exact ⟨rfl, statusNumber_of_statusOfNumber hs⟩
  · rintro ⟨rfl, rfl⟩
    simp

theorem handlerStatus_eq_ok {cap : Nat} {ans : HandlerAnswer} {st : Status} :
    handlerStatus cap ans = .ok st ↔
      ans.conduct = .proper ∧ (∀ c ∈ ans.stores, c.1 < cap) ∧ ans.written ≤ cap ∧ ans.status = statusNumber st := by
  unfold handlerStatus
  constructor
  · intro h
    split at h
    · cases h
    · cases h
    · rename_i hp
      split at h
      · cases h
      · rename_i hs
        split at h
        · cases h
        · rename_i hw
          split at h
          · cases h
          · rename_i e
            cases h
            refine ⟨hp, fun c hc => ?_, by omega, statusNumber_of_statusOfNumber e⟩
            simp only [List.any_eq_true, decide_eq_true_eq, not_exists, not_and] at hs
            have := hs c hc
            omega
  · rintro ⟨hp, hs, hw, e⟩
    have hn : ¬ ans.stores.any (fun c => decide (cap ≤ c.1)) = true := by
      simp only [List.any_eq_true, decide_eq_true_eq, not_exists, not_and]
      intro c hc
      have := hs c hc
      omega
    simp [hp, hn, e, Nat.not_lt.2 hw]

/-! ## The adapter and the loops -/

/-- Everything ADAPT_READ can answer. -/
theorem adapterRead_ok {bufValid : Bool} {a : Addr} {s t : State} {st : Status} {v : Value}
    (h : adapterRead bufValid a s = .ok (st, v, t)) :
    (bufValid = false ∧ st = .error .invalidAddress ∧ v = s.freeValue ∧ t = s.useFree) ∨
    (bufValid = true ∧ s.reg.provValid = true ∧ (s.readAnswer a).conduct = .proper ∧
      (s.readAnswer a).status = statusNumber st ∧
      ((st = .ok ∧ v = (s.readAnswer a).value ∧ t = s.afterRead a) ∨
        (∃ c, st = .error c ∧ v = s.freeValue ∧ t = (s.afterRead a).useFree))) := by
  unfold adapterRead at h
  split at h
  · rename_i hb
    cases h
    exact .inl ⟨hb, rfl, rfl, rfl⟩
  · rename_i hb
    split at h
    · cases h
    · rename_i hv
      have hb' : bufValid = true := by simpa using hb
      have hv' : s.reg.provValid = true := by simpa using hv
      split at h
      · cases h
      · rename_i e
        cases h
        obtain ⟨h1, h2⟩ := providerStatus_eq_ok.1 e
        exact .inr ⟨hb', hv', h1, h2, .inl ⟨rfl, rfl, rfl⟩⟩
      · rename_i c e
        cases h
        obtain ⟨h1, h2⟩ := providerStatus_eq_ok.1 e
        exact .inr ⟨hb', hv', h1, h2, .inr ⟨c, rfl, rfl, rfl⟩⟩

theorem adapterRead_of_ok {a : Addr} {s : State} (hv : s.reg.provValid = true)
    (hp : (s.readAnswer a).conduct = .proper) (he : (s.readAnswer a).status = 0) :
    adapterRead true a s = .ok (.ok, (s.readAnswer a).value, s.afterRead a) := by
  have e : providerStatus (s.readAnswer a).status (s.readAnswer a).conduct = .ok .ok :=
    providerStatus_eq_ok.2 ⟨hp, he⟩
  simp [adapterRead, hv, e]

theorem adapterRead_of_error {a : Addr} {s : State} {c : ErrorCode} (hv : s.reg.provValid = true)
    (hp : (s.readAnswer a).conduct = .proper) (he : (s.readAnswer a).status = errorNumber c) :
    adapterRead true a s = .ok (.error c, s.freeValue, (s.afterRead a).useFree) := by
  have e : providerStatus (s.readAnswer a).status (s.readAnswer a).conduct = .ok (.error c) :=
    providerStatus_eq_ok.2 ⟨hp, he⟩
  simp [adapterRead, hv, e]

/-- Everything ADAPT_WRITE can answer. -/
theorem adapterWrite_ok {bufValid : Bool} {a : Addr} {v : Value} {s t : State} {st : Status}
    (h : adapterWrite bufValid a v s = .ok (st, t)) :
    (bufValid = false ∧ st = .error .invalidAddress ∧ t = s) ∨
    (bufValid = true ∧ s.reg.provValid = true ∧ (s.writeAnswer a v).conduct = .proper ∧
      (s.writeAnswer a v).status = statusNumber st ∧ t = s.afterWrite a v) := by
  unfold adapterWrite at h
  split at h
  · rename_i hb
    cases h
    exact .inl ⟨hb, rfl, rfl⟩
  · rename_i hb
    split at h
    · cases h
    · rename_i hv
      split at h
      · cases h
      · rename_i e
        cases h
        obtain ⟨h1, h2⟩ := providerStatus_eq_ok.1 e
        exact .inr ⟨by simpa using hb, by simpa using hv, h1, h2, rfl⟩

theorem adapterWrite_of_answer {a : Addr} {v : Value} {s : State} {st : Status} (hv : s.reg.provValid = true)
    (hp : (s.writeAnswer a v).conduct = .proper) (he : (s.writeAnswer a v).status = statusNumber st) :
    adapterWrite true a v s = .ok (st, s.afterWrite a v) := by
  have e : providerStatus (s.writeAnswer a v).status (s.writeAnswer a v).conduct = .ok st :=
    providerStatus_eq_ok.2 ⟨hp, he⟩
  simp [adapterWrite, hv, e]

theorem adapterRead_effect {kind : CallEvent → Bool} {bufValid : Bool} {a : Addr} {s t : State} {st : Status} {v : Value}
    (hk : ∀ a ans, kind (.read s.reg.romRead a ans) = true) (hi : Nat)
    (h : adapterRead bufValid a s = .ok (st, v, t)) : PacketEffect kind hi s t := by
  rcases adapterRead_ok h with ⟨-, -, -, rfl⟩ | ⟨-, -, -, -, ⟨-, -, rfl⟩ | ⟨c, -, -, rfl⟩⟩
  · exact useFree_effect kind hi s
  · exact afterRead_effect hk hi a
  · exact (afterRead_effect hk hi a).trans (useFree_effect kind hi _)

theorem adapterWrite_effect {kind : CallEvent → Bool} {bufValid : Bool} {a : Addr} {v : Value} {s t : State} {st : Status}
    (hk : ∀ a v ans, kind (.write s.reg.romWrite a v ans) = true) (hi : Nat)
    (h : adapterWrite bufValid a v s = .ok (st, t)) : PacketEffect kind hi s t := by
  rcases adapterWrite_ok h with ⟨-, -, rfl⟩ | ⟨-, -, -, -, rfl⟩
  · exact PacketEffect.refl kind hi _
  · exact afterWrite_effect hk hi a v

theorem readBlock_effect {kind : CallEvent → Bool} {start : Addr} {n i : Nat} {s t : State} {o : Option ErrorCode}
    (hk : ∀ a ans, kind (.read s.reg.romRead a ans) = true) (h : readBlock start n i s = .ok (o, t)) :
    PacketEffect kind (multiLength (i + n)) s t := by
  induction n generalizing i s with
  | zero =>
    simp only [readBlock, Except.ok.injEq, Prod.mk.injEq] at h
    obtain ⟨-, rfl⟩ := h
    exact PacketEffect.refl kind _ _
  | succ n ih =>
    unfold readBlock at h
    have slot : ∀ (u : State) (v : Value),
        PacketEffect kind (multiLength (i + (n + 1))) u (u.writeOut (multiLength i) (be32 v)) := fun u v =>
      writeOut_effect kind u _ _ (by simp only [multiLength, be32_length]; omega)
    split at h
    · cases h
    · rename_i e
      have hr := (adapterRead_effect hk 0 e).reg
      have g := ih (by simpa [hr] using hk) h
      rw [show i + 1 + n = i + (n + 1) by omega] at g
      exact ((adapterRead_effect hk _ e).trans (slot _ _)).trans g
    · rename_i e
      cases h
      exact (adapterRead_effect hk _ e).trans (slot _ _)

theorem writeBlock_effect {kind : CallEvent → Bool} {start : Addr} {vs : List Value} {i : Nat} {s t : State}
    {o : Option ErrorCode} (hk : ∀ a v ans, kind (.write s.reg.romWrite a v ans) = true) (hi : Nat)
    (h : writeBlock start vs i s = .ok (o, t)) : PacketEffect kind hi s t := by
  induction vs generalizing i s with
  | nil =>
    simp only [writeBlock, Except.ok.injEq, Prod.mk.injEq] at h
    obtain ⟨-, rfl⟩ := h
    exact PacketEffect.refl kind hi _
  | cons v vs ih =>
    unfold writeBlock at h
    split at h
    · cases h
    · rename_i e
      have g := adapterWrite_effect hk hi e
      exact g.trans (ih (by simpa [g.reg] using hk) h)
    · rename_i e
      cases h
      exact adapterWrite_effect hk hi e

theorem emitBlocks_effect {as : List SixBit} {n m : Nat} {s t : State} (h : emitBlocks as n s = .ok (m, t)) :
    m = n + 5 * as.length ∧ MessageEffect m s t := by
  induction as generalizing n s with
  | nil =>
    simp only [emitBlocks, Except.ok.injEq, Prod.mk.injEq] at h
    obtain ⟨rfl, rfl⟩ := h
    exact ⟨by simp, MessageEffect.refl _ _⟩
  | cons a as ih =>
    unfold emitBlocks at h
    split at h
    · cases h
    · cases h
    · rename_i u e
      obtain ⟨hm, he⟩ := ih h
      rcases adapterRead_ok e with ⟨hb, -⟩ | ⟨-, -, -, -, ⟨-, -, rfl⟩ | ⟨c, hc, -⟩⟩
      · cases hb
      · refine ⟨by simp only [hm, List.length_cons]; omega, ?_⟩
        exact ((afterRead_message m s _).trans
          (writeEout_effect _ n _ (by simp only [additionalBlock_length]; omega))).trans he
      · cases hc

/-- What FWU's call can do. -/
theorem callFirmware_ok {p : List Byte} {s t : State} {e : Ending} (h : callFirmware p s = .ok (e, t)) :
    t = s.afterFirmware p ∧ (∀ c ∈ (s.firmwareAnswer p).stores, c.1 < s.cfg.cap.val) ∧
      (s.firmwareAnswer p).written ≤ s.cfg.cap.val ∧
      ((e = .ret (s.firmwareAnswer p).written) ∨ ∃ c, e = .raise c) := by
  unfold callFirmware at h
  split at h
  · cases h
  · rename_i g
    cases h
    obtain ⟨-, h2, h3, -⟩ := handlerStatus_eq_ok.1 g
    exact ⟨rfl, h2, h3, .inl rfl⟩
  · rename_i c g
    cases h
    obtain ⟨-, h2, h3, -⟩ := handlerStatus_eq_ok.1 g
    exact ⟨rfl, h2, h3, .inr ⟨c, rfl⟩⟩

/-- What CTL's call can do. -/
theorem callCommand_ok {p : List Byte} {s t : State} {e : Ending} (h : callCommand p s = .ok (e, t)) :
    t = s.afterCommand p ∧ (∀ c ∈ (s.commandAnswer p).stores, c.1 < s.cfg.cap.val) ∧
      (s.commandAnswer p).written ≤ s.cfg.cap.val ∧
      ((e = .ret (s.commandAnswer p).written) ∨ ∃ c, e = .raise c) := by
  unfold callCommand at h
  split at h
  · cases h
  · rename_i g
    cases h
    obtain ⟨-, h2, h3, -⟩ := handlerStatus_eq_ok.1 g
    exact ⟨rfl, h2, h3, .inl rfl⟩
  · rename_i c g
    cases h
    obtain ⟨-, h2, h3, -⟩ := handlerStatus_eq_ok.1 g
    exact ⟨rfl, h2, h3, .inr ⟨c, rfl⟩⟩

/-! ## The ends -/

theorem finish_effect (kind : CallEvent → Bool) {hi : Nat} (h : 2 ≤ hi) (tag : Byte) (s : State) (e : Ending) :
    PacketEffect kind hi s (finish tag s e) := by
  cases e with
  | ret n => exact returns_effect kind hi s _
  | raise c => exact (writeOut_effect kind s 0 [errorTag tag, errorNumber c] h).trans (returns_effect kind hi _ _)

/-- A request handler that ends: the host kept its duties, and the handler's steps ended. -/
theorem serve_next {tag : Byte} {len : Nat} {steps : State → Except Refusal (Ending × State)} {s t : State}
    (h : serve tag len steps s = .next t) :
    parseDuty s len = none ∧ ∃ e u, steps s = .ok (e, u) ∧ t = finish tag u e := by
  unfold serve at h
  split at h
  · cases h
  · rename_i d
    split at h
    · cases h
    · rename_i e u g
      cases h
      exact ⟨d, e, u, g, rfl⟩

theorem serve_of_ok {tag : Byte} {len : Nat} {steps : State → Except Refusal (Ending × State)} {s u : State}
    {e : Ending} (d : parseDuty s len = none) (g : steps s = .ok (e, u)) :
    serve tag len steps s = .next (finish tag u e) := by
  simp [serve, d, g]

/-- The host's duties are kept exactly when no duty is broken. -/
theorem parseDuty_eq_none {s : State} {len : Nat} :
    parseDuty s len = none ↔
      s.inOutOverlap = false ∧ s.out.room.holds s.cfg.cap.val = true ∧ len ≤ s.cfg.maxLen := by
  unfold parseDuty
  split
  · rename_i h
    simp [h]
  · split
    · rename_i h
      simp [h]
    · split
      · rename_i h
        simp [Nat.not_le.2 h]
      · rename_i h1 h2 h3
        simp only [true_iff]
        exact ⟨by simpa using h1, by simpa using h2, by omega⟩

/-- An encoder that ends: EOUT held its minimum. -/
theorem emit_next {message : List Byte} {s t : State} (h : emit message s = .next t) :
    s.eout.room.holds message.length = true ∧
      t = (s.writeEout 0 message).returns (.length message.length) := by
  unfold emit at h
  split at h
  · cases h
  · rename_i g
    cases h
    exact ⟨by simpa using g, rfl⟩

end Sys2Proof.Machine
end

