-- ==== Sys2Proof/Laws/PerInstr.lean ====
section
/-! SUPPORT. The per-instruction family of LAWS.json: the first byte of a request's packet selects the handler that the request
is for, and an instruction that is no request has no packet (R91, R95). -/

namespace Sys2Proof.Laws

open Machine

/-- The request handler an instruction is, where it is one (R5). -/
def handlerOf : Instr → Option Handler
  | .rdm _ => some .rdm
  | .wrm _ => some .wrm
  | .rds _ => some .rds
  | .wrs _ => some .wrs
  | .fwu _ => some .fwu
  | .ctl _ => some .ctl
  | .unk _ _ => some .unk
  | .err _ _ => none
  | .encEvent _ _ => none
  | .encStart _ => none
  | .encPair _ _ _ => none
  | .encShort _ _ _ _ => none
  | .parse _ _ => none
  | .register _ _ _ _ => none
  | .adaptRead _ _ => none
  | .adaptWrite _ _ _ => none
  | .apcDecode _ => none
  | .schPoll _ _ _ => none
  | .pschPoll _ _ _ _ => none

/-- The tag of the packet of a well-formed request selects its handler; nothing else has a packet. -/
def WireTag.Statement (i : Instr) : Prop :=
  match handlerOf i with
  | some h => i.wellFormed = true → ∃ tag rest, encode i = some (tag :: rest) ∧ classify tag = h
  | none => encode i = none

theorem WireTag.rdm (b : Body RdmFields) : WireTag.Statement (.rdm b) := fun _ => ⟨_, _, rfl, rfl⟩
theorem WireTag.wrm (b : Body WrmFields) : WireTag.Statement (.wrm b) := fun _ => ⟨_, _, rfl, rfl⟩
theorem WireTag.rds (b : Body Addr) : WireTag.Statement (.rds b) := fun _ => ⟨_, _, rfl, rfl⟩
theorem WireTag.wrs (b : Body WrsFields) : WireTag.Statement (.wrs b) := fun _ => ⟨_, _, rfl, rfl⟩
theorem WireTag.fwu (b : Body (List Byte)) : WireTag.Statement (.fwu b) := fun _ => ⟨_, _, rfl, rfl⟩
theorem WireTag.ctl (b : Body (List Byte)) : WireTag.Statement (.ctl b) := fun _ => ⟨_, _, rfl, rfl⟩
theorem WireTag.unk (tag : Byte) (rest : List Byte) : WireTag.Statement (.unk tag rest) :=
  fun h => ⟨tag, rest, rfl, by simpa [Instr.wellFormed] using h⟩
theorem WireTag.err (tag : Byte) (code : ErrorCode) : WireTag.Statement (.err tag code) := rfl
theorem WireTag.encEvent (eventId payload : Half) : WireTag.Statement (.encEvent eventId payload) := rfl
theorem WireTag.encStart (resetCount : Word) : WireTag.Statement (.encStart resetCount) := rfl
theorem WireTag.encPair (parameterId : Byte) (value : Word) (diff : Half) :
    WireTag.Statement (.encPair parameterId value diff) := rfl
theorem WireTag.encShort (payload : Word) (number : Byte) (schedule : Half) (packed : Word) :
    WireTag.Statement (.encShort payload number schedule packed) := rfl
theorem WireTag.parse (inValid : Bool) (len : Nat) : WireTag.Statement (.parse inValid len) := rfl
theorem WireTag.register (romRead romWrite fw cmd : Option Ref) :
    WireTag.Statement (.register romRead romWrite fw cmd) := rfl
theorem WireTag.adaptRead (bufValid : Bool) (a : Addr) : WireTag.Statement (.adaptRead bufValid a) := rfl
theorem WireTag.adaptWrite (bufValid : Bool) (a : Addr) (v : Value) :
    WireTag.Statement (.adaptWrite bufValid a v) := rfl
theorem WireTag.apcDecode (packed : Word) : WireTag.Statement (.apcDecode packed) := rfl
theorem WireTag.schPoll (hour minute : Byte) (schedule : Half) : WireTag.Statement (.schPoll hour minute schedule) := rfl
theorem WireTag.pschPoll (hour minute second : Byte) (schedule : Half) :
    WireTag.Statement (.pschPoll hour minute second schedule) := rfl

end Sys2Proof.Laws
end

