-- ==== Sys2Proof/Laws/Schedulers.lean ====
section
/-! SUPPORT. What one poll of a scheduler can do (R200, R210). -/

namespace Sys2Proof.Machine

/-- SCH: it fires exactly when the minute is divisible and the latch clear, and the latch is then whether it is divisible. -/
theorem schAdvance_eq (hour minute : Byte) (schedule : Half) (sch : Sch) :
    schAdvance hour minute schedule sch =
      (decide (minuteOfDay hour minute % minutePeriod schedule = 0) && !sch.latch,
        { latch := decide (minuteOfDay hour minute % minutePeriod schedule = 0) }) := by
  obtain ⟨latch⟩ := sch
  unfold schAdvance
  split
  · rename_i h
    cases latch <;> simp [h]
  · rename_i h
    simp [h]

@[simp] theorem pschObserveHour_next (hour : Byte) (p : Psch) : (pschObserveHour hour p).next = p.next := rfl

@[simp] theorem pschObserveHour_lastHour (hour : Byte) (p : Psch) : (pschObserveHour hour p).lastHour = hour := rfl

theorem pschObserveHour_wait (hour : Byte) (p : Psch) :
    (pschObserveHour hour p).wait = (p.wait && decide (p.lastHour.toNat ≤ hour.toNat)) := by
  simp only [pschObserveHour]
  split
  · rename_i h
    simp [Nat.not_le.2 h]
  · rename_i h
    simp [Nat.not_lt.1 h]

/-- PSCH's fire test never touches the last hour. -/
@[simp] theorem pschFire_lastHour (t period : Nat) (p : Psch) : (pschFire t period p).2.lastHour = p.lastHour := by
  obtain ⟨next, wait, lastHour⟩ := p
  unfold pschFire
  split
  · split <;> rfl
  · rfl

/-- Everything PSCH's fire test can answer: no fire, a fire within the day, a fire that wraps. -/
theorem pschFire_cases (t period : Nat) (p : Psch) :
    ((t < p.next.toNat ∨ p.wait = true) ∧ pschFire t period p = (false, p)) ∨
    (p.next.toNat ≤ t ∧ p.wait = false ∧ p.next.toNat + period < 86400 ∧
      pschFire t period p =
        (true, { next := BitVec.ofNat 32 (p.next.toNat + period), wait := false, lastHour := p.lastHour })) ∨
    (p.next.toNat ≤ t ∧ p.wait = false ∧ 86400 ≤ p.next.toNat + period ∧
      pschFire t period p =
        (true, { next := BitVec.ofNat 32 (p.next.toNat + period - 86400), wait := true, lastHour := p.lastHour })) := by
  obtain ⟨next, wait, lastHour⟩ := p
  unfold pschFire
  split
  · rename_i h
    obtain ⟨h1, rfl⟩ := h
    split
    · rename_i h2
      exact .inr (.inr ⟨h1, rfl, h2, rfl⟩)
    · rename_i h2
      exact .inr (.inl ⟨h1, rfl, Nat.not_le.1 h2, rfl⟩)
  · rename_i h
    refine .inl ⟨?_, rfl⟩
    cases wait
    · exact .inl (Nat.not_le.1 fun g => h ⟨g, rfl⟩)
    · exact .inr rfl

end Sys2Proof.Machine
end

