-- ==== Sys2Proof/Laws/Step.lean ====
section
/-! SUPPORT. What a step can do, said once, and the small lemmas of the test for overlapping operations. -/

namespace Sys2Proof.Machine

theorem overlapped_of_mark {c : HostCall} (rest : List HostCall) (h : c.overlapping = true) :
    overlapped c rest = true := by
  simp [overlapped, h]

theorem overlapped_of_next {c d : HostCall} (rest : List HostCall) (h : d.overlapping = true) :
    overlapped c (d :: rest) = true := by
  simp [overlapped, h]

theorem overlapped_eq_false {c : HostCall} {rest : List HostCall} :
    overlapped c rest = false ↔ c.overlapping = false ∧ ∀ d ∈ rest.head?, d.overlapping = false := by
  cases rest <;> simp [overlapped]

@[simp] theorem head_serialised_overlapping (l : List HostCall) : ∀ d ∈ (serialised l).head?, d.overlapping = false := by
  cases l <;> simp [serialised]

theorem step_of_nil {s : State} (h : s.pending = []) : step s = .next s := by
  simp [step, h]

theorem step_of_overlapped {s : State} {c : HostCall} {rest : List HostCall} (h : s.pending = c :: rest)
    (ho : overlapped c rest = true) : step s = .refused .overlappingOperations := by
  simp [step, h, ho]

theorem step_of_serial {s : State} {c : HostCall} {rest : List HostCall} (h : s.pending = c :: rest)
    (ho : overlapped c rest = false) : step s = exec c.op.val (s.accept c rest) := by
  simp [step, h, ho]

/-- Every next state is that of a step with nothing to do, or that of an operation that overlaps no other. -/
theorem step_eq_next {s t : State} (h : step s = .next t) :
    (s.pending = [] ∧ t = s) ∨
      ∃ c rest, s.pending = c :: rest ∧ overlapped c rest = false ∧ exec c.op.val (s.accept c rest) = .next t := by
  cases hp : s.pending with
  | nil => rw [step_of_nil hp] at h; cases h; exact .inl ⟨rfl, rfl⟩
  | cons c rest =>
    cases ho : overlapped c rest with
    | true => rw [step_of_overlapped hp ho] at h; cases h
    | false => rw [step_of_serial hp ho] at h; exact .inr ⟨c, rest, rfl, ho, h⟩

/-- The step right after `withFetchWord` runs the packet it has placed. -/
theorem step_withFetchWord (s : State) (nbits w : Nat) :
    step (s.withFetchWord nbits w) =
      exec (.parse true (packetOfWord nbits w).length)
        { s with
          cfg := { s.cfg with maxLen := s.cfg.maxLen + (packetOfWord nbits w).length }
          input := Memory.ofBytes (packetOfWord nbits w)
          out := { room := .asRequired, cells := [] }
          inOutOverlap := false
          pending := serialised s.pending } :=
  (step_of_serial (s := s.withFetchWord nbits w) rfl
    (overlapped_eq_false.2 ⟨rfl, head_serialised_overlapping _⟩)).trans rfl

end Sys2Proof.Machine
end

