-- ==== Sys2Proof/Tests/Slice0.lean ====
section
/-! SUPPORT. Tests: the checks of WellFormed refuse ill-formed terms; packets written out byte by byte from the formats decode to
their requests; at most two small tests of one operation each, whose expected values are the spec's own vectors
(95_test_vectors.md, cited as V<n>) or its worked examples; and for every statement with hypotheses a witness that meets
them. -/

namespace Sys2Proof.Tests

open Sys2Proof Machine

/-! ## Helpers -/

/-- A configuration with this CAP, MAXLEN 64 and the pair-event tag 0x01. -/
def config (cap : { n : Nat // 7 ≤ n }) : Config :=
  { cap := cap, maxLen := 64, pairEventTag := ⟨0x01, by decide⟩ }

/-- CAP = 13: an RDM of two values fills it. -/
def cap13 : { n : Nat // 7 ≤ n } := ⟨13, by decide⟩

/-- A registered machine with buffers of the required sizes and nothing in them. -/
def ready : State :=
  { State.reset with
    cfg := config cap13
    reg :=
      { provValid := true, fwValid := true, cmdValid := true,
        romRead := some 1, romWrite := some 2, fw := some 3, cmd := some 4 }
    out := { room := .asRequired, cells := [] }
    eout := { room := .asRequired, cells := [] } }

/-- The same with nothing registered. -/
def unregistered : State := { ready with reg := State.reset.reg }

/-- The provider's next read answers: Ok with each value. -/
def reading (vs : List Value) (s : State) : State :=
  { s with readAnswers := vs.map fun v => { status := 0, value := v, conduct := .proper } }

/-- One more read answer after those: a failure. -/
def thenFailing (c : ErrorCode) (s : State) : State :=
  { s with readAnswers := s.readAnswers ++ [{ status := errorNumber c, value := 0, conduct := .proper }] }

/-- The provider's next write answers. -/
def writing (sts : List Status) (s : State) : State :=
  { s with writeAnswers := sts.map fun st => { status := statusNumber st, conduct := .proper } }

/-- A handler's answer: it stores these bytes from offset 0 and reports k. -/
def answer (st : Status) (k : Nat) (bs : List Byte) : HandlerAnswer :=
  { status := statusNumber st, written := k, stores := Memory.ofBytes bs, conduct := .proper }

/-- The firmware handler's next answer. -/
def firmware (a : HandlerAnswer) (s : State) : State := { s with firmwareAnswers := [a] }

/-- The command handler's next answer. -/
def command (a : HandlerAnswer) (s : State) : State := { s with commandAnswers := [a] }

/-- The state with a packet in IN. -/
def holding (bs : List Byte) (s : State) : State := { s with input := Memory.ofBytes bs }

/-- The next state, where there is one. -/
def next? : Host.Outcome State Fault Refusal → Option State
  | .next t => some t
  | .fault _ => none
  | .refused _ => none

/-- The result and the known bytes of OUT. -/
def response (o : Host.Outcome State Fault Refusal) : Option (Result × List Byte) :=
  (next? o).map fun t => (t.result, t.out.cells.map (·.2))

/-- The result and the known bytes of EOUT. -/
def message (o : Host.Outcome State Fault Refusal) : Option (Result × List Byte) :=
  (next? o).map fun t => (t.result, t.eout.cells.map (·.2))

/-- The result and the latch. -/
def latch (o : Host.Outcome State Fault Refusal) : Option (Result × Bool) :=
  (next? o).map fun t => (t.result, t.sch.latch)

/-- The result and PSCH's state. -/
def precise (o : Host.Outcome State Fault Refusal) : Option (Result × Psch) :=
  (next? o).map fun t => (t.result, t.psch)

/-- The collaborator's next answers, broken: a status over 6 to a read, and to a write a proper one while the block is re-entered. -/
def broken (s : State) : State :=
  { s with
    readAnswers := s.readAnswers ++ [{ status := 7, value := 0, conduct := .proper }]
    writeAnswers := s.writeAnswers ++ [{ status := 0, conduct := .reentersBlock }] }

/-- A PARSE with nothing else in the host's list, its packet and an OUT of the required size handed over. -/
def parseCall (bs : List Byte) : HostCall :=
  { op := ⟨.parse true bs.length, rfl⟩, input := some bs, output := some { room := .asRequired, bytes := [] } }

/-! ## WellFormed refuses ill-formed terms -/

theorem test_wellFormed_rdm : (Instr.rdm (.badLength [0, 0, 0, 0])).wellFormed = false := by decide
theorem test_wellFormed_wrm_length : (Instr.wrm (.badLength [0, 0, 0, 1, 0, 0, 0, 9])).wellFormed = false := by decide
theorem test_wellFormed_wrm_count : (Instr.wrm (.valid ⟨0, List.replicate 65536 0⟩)).wellFormed = false := by
  simp only [Instr.wellFormed, List.length_replicate]
  decide
theorem test_wellFormed_rds : (Instr.rds (.badLength [0, 0])).wellFormed = false := by decide
theorem test_wellFormed_wrs : (Instr.wrs (.badLength [0, 0, 0, 0, 0, 0])).wellFormed = false := by decide
theorem test_wellFormed_fwu_valid : (Instr.fwu (.valid [])).wellFormed = false := by decide
theorem test_wellFormed_fwu_length : (Instr.fwu (.badLength [0])).wellFormed = false := by decide
theorem test_wellFormed_ctl_valid : (Instr.ctl (.valid [1, 2, 3, 4, 5])).wellFormed = false := by decide
theorem test_wellFormed_ctl_length : (Instr.ctl (.badLength [1, 2, 3, 4, 5, 6])).wellFormed = false := by decide
theorem test_wellFormed_unk : (Instr.unk 0x03 []).wellFormed = false := by decide
theorem test_wellFormed_schPoll_time : (Instr.schPoll 24 0 1).wellFormed = false := by decide
theorem test_wellFormed_schPoll_schedule : (Instr.schPoll 0 0 1441).wellFormed = false := by decide
theorem test_wellFormed_pschPoll_time : (Instr.pschPoll 0 0 60 1).wellFormed = false := by decide
theorem test_wellFormed_pschPoll_schedule : (Instr.pschPoll 0 0 0 0).wellFormed = false := by decide

/-! ## Packets written out from R82 -/

theorem test_decode_rdm : decode [0x03, 0x00, 0x10, 0x00, 0x02] = .ok (.rdm (.valid ⟨0x0010, 2⟩)) := rfl
theorem test_decode_rdm_long : decode [0x03, 0x00, 0x10, 0x00, 0x01, 0x00] = .ok (.rdm (.badLength [0, 0x10, 0, 1, 0])) := rfl
theorem test_decode_wrm :
    decode [0x10, 0x00, 0x40, 0x00, 0x01, 0xFF, 0xFF, 0xFF, 0xFE] = .ok (.wrm (.valid ⟨0x0040, [0xFFFFFFFE]⟩)) := by decide
theorem test_decode_wrm_short : decode [0x10, 0x00, 0x40] = .ok (.wrm (.badLength [0x00, 0x40])) := rfl
theorem test_decode_rds : decode [0x07, 0x12, 0x34] = .ok (.rds (.valid 0x1234)) := rfl
theorem test_decode_wrs :
    decode [0x06, 0x00, 0x20, 0x80, 0x00, 0x00, 0x01] = .ok (.wrs (.valid ⟨0x0020, 0x80000001⟩)) := rfl
theorem test_decode_fwu : decode [0x29, 0x05] = .ok (.fwu (.valid [0x05])) := rfl
theorem test_decode_ctl : decode [0x27, 1, 2, 3, 4, 5, 6] = .ok (.ctl (.valid [1, 2, 3, 4, 5, 6])) := by decide
theorem test_decode_unk : decode [0x43, 0x01] = .ok (.unk 0x43 [0x01]) := rfl
theorem test_decode_empty : decode [] = .error .emptyPacket := rfl
theorem test_decodeTableWord_rds : decodeTableWord 24 0x341207 = some (.rds (.valid 0x1234)) := by decide
theorem test_decodeTableWord_rdm : decodeTableWord 8 0x03 = some (.rdm (.valid ⟨0, 0⟩)) := by decide

/-! ## The operations -/

/-- V40. -/
theorem test_rdm : response (exec (.rdm (.valid ⟨0x0010, 2⟩)) (reading [1, 0xFFFFFFFE] ready)) =
    some (.length 13, [0x03, 0, 0x10, 0, 2, 0, 0, 0, 1, 0xFF, 0xFF, 0xFF, 0xFE]) := by decide
/-- V43 at CAP = 13: one value more than fits. -/
theorem test_rdm_capacity : response (exec (.rdm (.valid ⟨0x0010, 3⟩)) ready) = some (.length 2, [0x43, 6]) := by decide
/-- V60. -/
theorem test_wrm : response (exec (.wrm (.valid ⟨0x0040, [1, 0xFFFFFFFF]⟩)) (writing [.ok, .ok] ready)) =
    some (.length 5, [0x10, 0, 0x40, 0, 2]) := by decide
/-- V67: the second write fails and the third is never tried. -/
theorem test_wrm_fails :
    (next? (exec (.wrm (.valid ⟨0x0030, [1, 2, 3]⟩)) (writing [.ok, .error .readOnly, .ok] ready))).map
      (fun t => (t.out.cells.map (·.2), t.history.length)) = some ([0x50, 5, 0x30, 0, 3], 2) := by decide
/-- V21. -/
theorem test_rds : response (exec (.rds (.valid 0x0011)) (reading [0xFFFFFFFE] ready)) =
    some (.length 7, [0x07, 0, 0x11, 0xFF, 0xFF, 0xFF, 0xFE]) := by decide
/-- V22: the slot of the failing read is not looked at. -/
theorem test_rds_fails :
    (next? (exec (.rds (.valid 0x0012)) (thenFailing .invalidAddress ready))).map
      (fun t => (t.result, t.out.cells.read 0, t.out.cells.read 1, t.out.cells.read 2, t.out.cells.read 7)) =
    some (.length 2, some 0x47, some 2, some 0x12, none) := by decide
/-- V28. -/
theorem test_wrs : (next? (exec (.wrs (.valid ⟨0x0020, 0x80000000⟩)) (writing [.ok] ready))).map (fun t => t.history) =
    some [.write (some 2) 0x0020 0x80000000 { status := 0, conduct := .proper }] := by decide
/-- V29. -/
theorem test_wrs_fails : response (exec (.wrs (.valid ⟨0x0031, 42⟩)) (writing [.error .readOnly] ready)) =
    some (.length 2, [0x46, 5, 0x31, 0, 0, 0, 0x2A]) := by decide
/-- V83. -/
theorem test_fwu : response (exec (.fwu (.valid [0x05, 0x09, 0x09])) (firmware (answer .ok 3 [0x29, 0x05, 0x00]) ready)) =
    some (.length 3, [0x29, 0x05, 0x00]) := by decide
/-- V84. -/
theorem test_fwu_fails :
    response (exec (.fwu (.valid [0x05, 0x09, 0x09])) (firmware (answer (.error .lowLevelError) 3 [0x29, 0x05, 0x00]) ready)) =
    some (.length 2, [0x69, 0x04, 0x00]) := by decide
/-- V88. -/
theorem test_ctl :
    response (exec (.ctl (.valid [1, 2, 3, 4, 5, 6])) (command (answer .ok 7 [0x27, 1, 2, 3, 4, 5, 6]) ready)) =
    some (.length 7, [0x27, 1, 2, 3, 4, 5, 6]) := by decide
/-- V91: the length comes before the presence. -/
theorem test_ctl_length : response (exec (.ctl (.badLength [])) unregistered) = some (.length 2, [0x67, 6]) := by decide
/-- V6. -/
theorem test_unk : response (exec (.unk 0x83 [0, 0, 0, 0, 0, 0]) ready) = some (.length 2, [0xC3, 1]) := by decide
/-- R112's example. -/
theorem test_err : response (exec (.err 0x06 .readOnly) ready) = some (.length 2, [0x46, 5]) := by decide
/-- V126. -/
theorem test_encEvent : message (exec (.encEvent 0x1234 0xABCD) ready) =
    some (.length 5, [0x20, 0x12, 0x34, 0xAB, 0xCD]) := by decide
/-- V123. -/
theorem test_encStart : message (exec (.encStart 65541) ready) = some (.length 5, [0x20, 0, 0, 0, 5]) := by decide
/-- V125. -/
theorem test_encStart_negative : message (exec (.encStart 0x80000000) ready) = some (.length 5, [0x20, 0, 0, 0, 0]) := by
  decide
/-- V129, with PT = 0x01. -/
theorem test_encPair : message (exec (.encPair 0x05 0x01020304 0xFFFE) ready) =
    some (.length 8, [0x01, 0x05, 1, 2, 3, 4, 0xFF, 0xFE]) := by decide
/-- V141. -/
theorem test_encShort :
    message (exec (.encShort 0x0A0B0C0D 63 1440 0x81) (reading [0x11223344, 0xFFFFFFFF] ready)) =
    some (.length 17, [0xBF, 0x05, 0xA0, 0x0A, 0x0B, 0x0C, 0x0D, 1, 0x11, 0x22, 0x33, 0x44, 2, 0xFF, 0xFF, 0xFF, 0xFF]) := by
  decide
/-- V144: the range check comes before the decode. -/
theorem test_encShort_rejects : message (exec (.encShort 0 255 1 0x81) ready) = some (.length 0, []) := by decide
/-- V20, through PARSE. -/
theorem test_parse : response (exec (.parse true 3) (holding [0x07, 0x00, 0x10] (reading [1] ready))) =
    some (.length 7, [0x07, 0, 0x10, 0, 0, 0, 1]) := by decide
/-- V2. -/
theorem test_parse_empty : response (exec (.parse true 0) ready) = some (.length 0, []) := by decide
/-- V104. -/
theorem test_register : (next? (exec (.register (some 11) (some 12) none (some 14)) ready)).map (fun t => t.reg) =
    some { provValid := true, fwValid := false, cmdValid := true,
           romRead := some 11, romWrite := some 12, fw := none, cmd := some 14 } := by decide
/-- V105. -/
theorem test_register_fails : (next? (exec (.register (some 11) none (some 13) (some 14)) ready)).map (fun t => (t.reg, t.result)) =
    some (ready.reg, .registered false) := by decide
/-- V106. -/
theorem test_adaptRead : (next? (exec (.adaptRead true 0x0012) (reading [0x12345678] ready))).map (fun t => t.result) =
    some (.read .ok 0x12345678) := by decide
/-- V108. -/
theorem test_adaptWrite :
    (next? (exec (.adaptWrite true 0x0020 0x80000000) (writing [.error .invalidValue] ready))).map (fun t => t.result) =
    some (.write (.error .invalidValue)) := by decide
/-- V164. -/
theorem test_apcDecode : (next? (exec (.apcDecode 0x00100081) ready)).map (fun t => t.result) =
    some (.addresses [1, 2]) := by decide
/-- V172. -/
theorem test_apcDecode_negative : (next? (exec (.apcDecode 0xFFFFFFFF) ready)).map (fun t => t.result) =
    some (.addresses [63, 63, 63, 63, 63]) := by decide
/-- The single poll of section 2.10: from LATCH = 1, (12, 1) with schedule 24. -/
theorem test_schPoll : latch (exec (.schPoll 12 1 24) { ready with sch := { latch := true } }) =
    some (.fire false, false) := by decide
/-- From LATCH = 0, (1, 0) with schedule 24. -/
theorem test_schPoll_fires : latch (exec (.schPoll 1 0 24) ready) = some (.fire true, true) := by decide
/-- The single poll of section 2.11: from (0, 1, 23) at midnight with schedule 1, the advance lands on one day. -/
theorem test_pschPoll : precise (exec (.pschPoll 0 0 0 1) { ready with psch := { next := 0, wait := true, lastHour := 23 } }) =
    some (.fire true, { next := 0, wait := true, lastHour := 0 }) := by decide
/-- From (50000, 0, 10), 09:00:00 with schedule 4. -/
theorem test_pschPoll_silent :
    precise (exec (.pschPoll 9 0 0 4) { ready with psch := { next := 50000, wait := false, lastHour := 10 } }) =
    some (.fire false, { next := 50000, wait := false, lastHour := 9 }) := by decide
/-- P5, step 1: a structural error straight after reset, through the host's call. -/
theorem test_step_parse : response (step { unregistered with pending := [parseCall [0x07, 0x00]] }) =
    some (.length 2, [0x47, 6]) := by decide
/-- V109. -/
theorem test_step_unregistered :
    step { unregistered with pending := [parseCall [0x07, 0x00, 0x10]] } = .refused .providerNotRegistered := rfl
/-- R255: neither of two overlapping operations has a meaning, the earlier one here. -/
theorem test_step_overlapped :
    step { ready with pending := [parseCall [0x07, 0x00], { parseCall [0x07, 0x00] with overlapping := true }] } =
      .refused .overlappingOperations := rfl

/-! ## Witnesses: for each statement with hypotheses, values that meet them -/

theorem witness_DecodeInvertsEncode :
    (Instr.wrm (.valid ⟨0xFFFF, [1, 0xFFFFFFFF]⟩)).wellFormed = true ∧
    encode (.wrm (.valid ⟨0xFFFF, [1, 0xFFFFFFFF]⟩)) =
      some [0x10, 0xFF, 0xFF, 0, 2, 0, 0, 0, 1, 0xFF, 0xFF, 0xFF, 0xFF] := by decide
theorem witness_EncodeInvertsDecode : decode [0x10, 0, 0x40, 0, 0] = .ok (.wrm (.valid ⟨0x0040, []⟩)) := by decide
theorem witness_TagSelectsTheHandler :
    (0x02 : Byte) ≠ 0x03 ∧ (0x02 : Byte) ≠ 0x06 ∧ (0x02 : Byte) ≠ 0x07 ∧ (0x02 : Byte) ≠ 0x10 ∧ (0x02 : Byte) ≠ 0x27 ∧
    (0x02 : Byte) ≠ 0x29 := by decide
theorem witness_StepRunsTheNextHostOperation :
    State.reset.pending = [] ∧
    (∃ (s : State) (c : HostCall), s.pending = [c] ∧ c.overlapping = true) ∧
    (∃ (s : State) (c d : HostCall), s.pending = [c, d] ∧ d.overlapping = true ∧ c.overlapping = false) ∧
    (∃ (s : State) (c d : HostCall), s.pending = [c, d] ∧ c.overlapping = false ∧
      ∀ e ∈ [d].head?, e.overlapping = false) :=
  ⟨rfl, ⟨{ ready with pending := [{ parseCall [0x07] with overlapping := true }] }, _, rfl, rfl⟩,
    ⟨{ ready with pending := [parseCall [0x07], { parseCall [0x07] with overlapping := true }] }, _, _, rfl, rfl, rfl⟩,
    ⟨{ ready with pending := [parseCall [0x07], parseCall [0x06]] }, _, _, rfl, rfl, by simp [parseCall]⟩⟩
theorem witness_StepRunsTheDecodedPacket :
    (parseCall [0x07, 0x00]).overlapping = false ∧
    (∀ d ∈ [parseCall [0x06]].head?, d.overlapping = false) ∧ (parseCall [0x07, 0x00]).op.val = .parse true 2 ∧
    (ready.accept (parseCall [0x07, 0x00]) [parseCall [0x06]]).input.readRange 0 2 = some [0x07, 0x00] ∧
    decode [0x07, 0x00] = .ok (.rds (.badLength [0x00])) := by decide
theorem witness_StepKeepsTheInvariant :
    ready.inv = true ∧ (next? (step { ready with pending := [parseCall [0x07, 0x00]] })).isSome = true := by decide
theorem witness_StepKeepsTheConfiguration :
    (next? (step { ready with pending := [parseCall [0x07, 0x00]] })).isSome = true := by decide
theorem witness_ProviderStaysRegistered :
    ready.reg.provValid = true ∧ (next? (exec (.register none (some 2) none none) ready)).isSome = true := by decide
theorem witness_OnlyRegisterWritesTheSlot :
    (next? (exec (.register (some 1) (some 2) none none) unregistered)).isSome = true := by decide
theorem witness_SchedulersOwnTheirState :
    (next? (exec (.schPoll 0 0 24) ready)).isSome = true ∧ (next? (exec (.pschPoll 0 0 0 24) ready)).isSome = true := by decide
theorem witness_OperationsCallOnlyTheirCollaborators :
    (next? (exec (.parse true 3) (holding [0x07, 0x00, 0x10] (reading [1] ready)))).isSome = true := by decide
theorem witness_ErrWritesTheErrorFrame : ready.parseReady 1 = true := by decide
theorem witness_UnknownTagAnswersInvalidType :
    ready.parseReady (([] : List Byte).length + 1) = true ∧
    ((holding [0x28] ready).parseReady (([] : List Byte).length + 1) = true ∧
      (holding [0x28] ready).input.readRange 0 (([] : List Byte).length + 1) = some [0x28] ∧
      (0x28 : Byte) ≠ 0x03 ∧ (0x28 : Byte) ≠ 0x06 ∧ (0x28 : Byte) ≠ 0x07 ∧ (0x28 : Byte) ≠ 0x10 ∧
      (0x28 : Byte) ≠ 0x27 ∧ (0x28 : Byte) ≠ 0x29) ∧
    ((0x01 : Byte) = ready.cfg.pairEventTag.val ∧ (0x80 : Byte).getLsbD 7 = true ∧ (0x43 : Byte).getLsbD 6 = true) := by
  decide
theorem witness_StructuralErrorsComeFirst :
    encode (.rdm (.valid ⟨0, 3⟩)) = some (0x03 :: [0, 0, 0, 3]) ∧ ready.parseReady ([0, 0, 0, 3].length + 1) = true ∧
    structuralError ready (.rdm (.valid ⟨0, 3⟩)) = some .invalidLength := by decide
/-- The response fills OUT, and the addresses wrap. -/
theorem witness_RdmReadsTheBlockInOrder :
    (reading [7, 8] ready).parseReady 5 = true ∧ 5 + 4 * (2 : Half).toNat = (reading [7, 8] ready).cfg.cap.val ∧
    ([7, 8] : List Value).length = (2 : Half).toNat ∧ (reading [7, 8] ready).reg.provValid = true ∧
    readsOk 0xFFFF [7, 8] 0 (reading [7, 8] ready) = true := by decide
/-- Count 0 needs no provider. -/
theorem witness_RdmReadsTheBlockInOrder_none :
    unregistered.parseReady 5 = true ∧ 5 + 4 * (0 : Half).toNat ≤ unregistered.cfg.cap.val ∧
    ([] : List Value).length = (0 : Half).toNat ∧ readsOk 0x0010 [] 0 unregistered = true := by decide
theorem witness_RdmStopsAtTheFirstFailingRead :
    (thenFailing .readOnly (reading [7] ready)).parseReady 5 = true ∧
    5 + 4 * (2 : Half).toNat ≤ (thenFailing .readOnly (reading [7] ready)).cfg.cap.val ∧
    ([7] : List Value).length < (2 : Half).toNat ∧ (thenFailing .readOnly (reading [7] ready)).reg.provValid = true ∧
    readsOk 0x0010 [7] 0 (thenFailing .readOnly (reading [7] ready)) = true ∧
    (afterReads 0x0010 ([7] : List Value).length 0 (thenFailing .readOnly (reading [7] ready))).readFails
      (addrAt 0x0010 ([7] : List Value).length) .readOnly = true := by decide
theorem witness_WrmWritesTheBlockInOrder :
    (writing [.ok, .ok] ready).parseReady (5 + 4 * ([7, 8] : List Value).length) = true ∧
    ([7, 8] : List Value).length < 65536 ∧ (writing [.ok, .ok] ready).reg.provValid = true ∧
    writesOk 0xFFFF [7, 8] 0 (writing [.ok, .ok] ready) = true := by decide
/-- Count 0 needs no provider. -/
theorem witness_WrmWritesTheBlockInOrder_none :
    unregistered.parseReady (5 + 4 * ([] : List Value).length) = true ∧ writesOk 0x0040 [] 0 unregistered = true := by
  decide
theorem witness_WrmStopsAtTheFirstFailingWrite :
    (writing [.ok, .error .readOnly] ready).parseReady (5 + 4 * ([1] ++ 2 :: [3] : List Value).length) = true ∧
    ([1] ++ 2 :: [3] : List Value).length < 65536 ∧ (writing [.ok, .error .readOnly] ready).reg.provValid = true ∧
    writesOk 0x0030 [1] 0 (writing [.ok, .error .readOnly] ready) = true ∧
    (afterWrites 0x0030 [1] 0 (writing [.ok, .error .readOnly] ready)).writeGives
      (addrAt 0x0030 ([1] : List Value).length) 2 (.error .readOnly) = true := by decide
theorem witness_RdsAnswersTheValue :
    ready.parseReady (([] : List Byte).length + 1) = true ∧
    ((reading [0x80000000] ready).parseReady 3 = true ∧ (reading [0x80000000] ready).reg.provValid = true ∧
      (reading [0x80000000] ready).readOk 0xFFFF 0x80000000 = true) ∧
    ((thenFailing .invalidAddress ready).parseReady 3 = true ∧ (thenFailing .invalidAddress ready).reg.provValid = true ∧
      (thenFailing .invalidAddress ready).readFails 0x0012 .invalidAddress = true) := by decide
theorem witness_WrsMirrorsBeforeTheWrite :
    ready.parseReady (([] : List Byte).length + 1) = true ∧
    ((writing [.ok] ready).parseReady 7 = true ∧ (writing [.ok] ready).reg.provValid = true ∧
      (writing [.ok] ready).writeGives 0 0x7FFFFFFF .ok = true) ∧
    ((writing [.error .readOnly] ready).parseReady 7 = true ∧ (writing [.error .readOnly] ready).reg.provValid = true ∧
      (writing [.error .readOnly] ready).writeGives 0x31 42 (.error .readOnly) = true) := by decide
theorem witness_FwuDelegatesToTheFirmwareHandler :
    ready.parseReady (([] : List Byte).length + 1) = true ∧
    (unregistered.parseReady ([5].length + 1) = true ∧ unregistered.reg.fwValid = false) ∧
    (([5] : List Byte) ≠ [] ∧ (firmware (answer .ok 13 [0x29]) ready).parseReady ([5].length + 1) = true ∧
      (firmware (answer .ok 13 [0x29]) ready).reg.fwValid = true ∧
      handlerGives (firmware (answer .ok 13 [0x29]) ready).cfg.cap.val .ok
        ((firmware (answer .ok 13 [0x29]) ready).firmwareAnswer [0x29, 5]) = true) ∧
    ((firmware (answer (.error .lowLevelError) 0 []) ready).parseReady ([5].length + 1) = true ∧
      (firmware (answer (.error .lowLevelError) 0 []) ready).reg.fwValid = true ∧
      handlerGives (firmware (answer (.error .lowLevelError) 0 []) ready).cfg.cap.val (.error .lowLevelError)
        ((firmware (answer (.error .lowLevelError) 0 []) ready).firmwareAnswer [0x29, 5]) = true) := by
  decide
theorem witness_CtlDelegatesToTheCommandHandler :
    ready.parseReady (([] : List Byte).length + 1) = true ∧
    (([1, 2, 3, 4, 5, 6] : List Byte).length = 6 ∧ unregistered.parseReady 7 = true ∧
      unregistered.reg.cmdValid = false) ∧
    (([1, 2, 3, 4, 5, 6] : List Byte).length = 6 ∧ (command (answer .ok 13 [0x27]) ready).parseReady (7) = true ∧
      (command (answer .ok 13 [0x27]) ready).reg.cmdValid = true ∧
      handlerGives (command (answer .ok 13 [0x27]) ready).cfg.cap.val .ok
        ((command (answer .ok 13 [0x27]) ready).commandAnswer [0x27, 1, 2, 3, 4, 5, 6]) = true) ∧
    ((command (answer (.error .lowLevelError) 0 []) ready).parseReady (7) = true ∧
      (command (answer (.error .lowLevelError) 0 []) ready).reg.cmdValid = true ∧
      handlerGives (command (answer (.error .lowLevelError) 0 []) ready).cfg.cap.val (.error .lowLevelError)
        ((command (answer (.error .lowLevelError) 0 []) ready).commandAnswer [0x27, 1, 2, 3, 4, 5, 6]) = true) := by
  decide
theorem witness_ParseRunsTheSelectedHandler :
    (ready.parseReady 64 = true ∧ ready.parseReady 0 = true) ∧
    (holding [0x07] ready).input.readRange 0 (([] : List Byte).length + 1) = some [0x07] := by decide
theorem witness_ParseAlwaysEnds :
    (holding [0x07, 0x00, 0x10] (reading [1] ready)).parseReady 3 = true ∧
    (holding [0x07, 0x00, 0x10] (reading [1] ready)).input.readRange 0 3 = some [0x07, 0x00, 0x10] ∧
    decode [0x07, 0x00, 0x10] = .ok (.rds (.valid 0x0010)) ∧
    callsProper (holding [0x07, 0x00, 0x10] (reading [1] ready)) (.rds (.valid 0x0010)) = true := by decide
/-- Every other request whose calls may break a duty: the calls of each are proper here. -/
theorem witness_ParseAlwaysEnds_others :
    (decode [0x03, 0, 0x10, 0, 2] = .ok (.rdm (.valid ⟨0x0010, 2⟩)) ∧
      callsProper (thenFailing .readOnly (reading [1] ready)) (.rdm (.valid ⟨0x0010, 2⟩)) = true) ∧
    (decode [0x10, 0, 0x30, 0, 1, 0, 0, 0, 9] = .ok (.wrm (.valid ⟨0x0030, [9]⟩)) ∧
      callsProper (writing [.ok] ready) (.wrm (.valid ⟨0x0030, [9]⟩)) = true) ∧
    callsProper (writing [.error .readOnly] ready) (.wrs (.valid ⟨0x0020, 42⟩)) = true ∧
    callsProper (firmware (answer .ok 13 [0x29]) ready) (.fwu (.valid [5])) = true ∧
    callsProper unregistered (.fwu (.valid [5])) = true ∧
    callsProper (command (answer (.error .lowLevelError) 0 []) ready) (.ctl (.valid [1, 2, 3, 4, 5, 6])) = true ∧
    callsProper unregistered (.rdm (.valid ⟨0x0010, 3⟩)) = true := by decide
theorem witness_ResponsesStayInsideCap :
    (encode (.rds (.valid 0x0010))).isSome = true ∧
    (next? (exec (.rds (.valid 0x0010)) (reading [1] ready))).isSome = true := by decide
theorem witness_PacketsLeaveTheBlockAlone :
    (encode (.wrs (.valid ⟨0, 0⟩))).isSome = true ∧
    (next? (exec (.wrs (.valid ⟨0, 0⟩)) (writing [.ok] ready))).isSome = true := by decide
theorem witness_PacketsIgnoreTheSchedulers : (encode (.unk 0x20 [])).isSome = true := by decide
theorem witness_HandlersStoreOnlyTheirBytes_parameters :
    (next? (exec (.rdm (.valid ⟨0, 2⟩)) (reading [1, 2] ready))).isSome = true ∧
    (next? (exec (.wrm (.valid ⟨0, [1]⟩)) (writing [.ok] ready))).isSome = true ∧
    (next? (exec (.rds (.valid 0)) (reading [1] ready))).isSome = true ∧
    (next? (exec (.wrs (.valid ⟨0, 0⟩)) (writing [.ok] ready))).isSome = true := by decide
theorem witness_HandlersStoreOnlyTheirBytes_others :
    (next? (exec (.fwu (.valid [5])) (firmware (answer .ok 1 [0x29]) ready))).isSome = true ∧
    (next? (exec (.ctl (.valid [1, 2, 3, 4, 5, 6])) (command (answer .ok 1 [0x27]) ready))).isSome = true ∧
    (structuralError ready (.unk 0x20 [])).isSome = true ∧ (next? (exec (.unk 0x20 []) ready)).isSome = true ∧
    (next? (exec (.err 0x06 .readOnly) ready)).isSome = true := by decide
theorem witness_AdaptReadCallsTheProviderOnce :
    ((reading [0xFFFFFFFF] ready).reg.provValid = true ∧ (reading [0xFFFFFFFF] ready).readOk 0xFFFF 0xFFFFFFFF = true) ∧
    ((thenFailing .invalidLength ready).reg.provValid = true ∧
      (thenFailing .invalidLength ready).readFails 0 .invalidLength = true) ∧
    unregistered.reg.provValid = false := by decide
theorem witness_AdaptWriteCallsTheProviderOnce :
    ((writing [.ok] ready).reg.provValid = true ∧ (writing [.ok] ready).writeGives 0xFFFF 0x80000000 .ok = true) ∧
    unregistered.reg.provValid = false := by decide
theorem witness_RegisterNeedsBothPrimitives : (none : Option Ref) = none ∨ (some 2 : Option Ref) = none := by decide
theorem witness_EncEventBuildsFiveBytes : (Room.bytes 5).holds 5 = true ∧ ready.eout.room.holds 5 = true := by decide
theorem witness_EncStartClampsThenTruncates : ready.eout.room.holds 5 = true := by decide
theorem witness_EncPairBuildsEightBytes : ready.eout.room.holds 8 = true := by decide
theorem witness_EncShortAppendsTheBlocksInOrder :
    (reading [0x11223344, 0xFFFFFFFF] ready).eout.room.holds 32 = true ∧ (63 : Byte).toNat ≤ 63 ∧
    [1, 2] = ((List.range 5).map (packedField 0x81)).takeWhile (· ≠ 0) ∧
    (reading [0x11223344, 0xFFFFFFFF] ready).reg.provValid = true ∧
    additionalReadsOk [1, 2] [0x11223344, 0xFFFFFFFF] (reading [0x11223344, 0xFFFFFFFF] ready) = true := by decide
theorem witness_EncShortRejectsLargeNumbers : ready.eout.room.holds 32 = true ∧ 63 < (64 : Byte).toNat := by decide
theorem witness_EncodersChangeOnlyTheirMessage :
    (next? (exec (.encEvent 0 0) ready)).isSome = true ∧ (next? (exec (.encStart 0) ready)).isSome = true ∧
    (next? (exec (.encPair 0 0 0) ready)).isSome = true ∧ (next? (exec (.encShort 0 63 0 0) ready)).isSome = true := by decide
theorem witness_PackedWordDecodesToItsAddresses :
    ([1, 63, 63, 63, 63] : List SixBit).length ≤ 5 ∧ (∀ a ∈ ([1, 63, 63, 63, 63] : List SixBit), a ≠ 0) ∧
    (([1, 63, 63, 63, 63] : List SixBit).length < 5 → 3 % 64 = 0) ∧
    ([1] : List SixBit).length < 5 ∧ 64 % 64 = 0 := by decide
theorem witness_SchPollFiresOncePerDivisibleMinute :
    (23 : Byte).toNat ≤ 23 ∧ (59 : Byte).toNat ≤ 59 ∧ 1 ≤ (1 : Half).toNat ∧ (1440 : Half).toNat ≤ 1440 := by decide
theorem witness_SchPeriodOneFiresOnce : 721 ≤ (721 : Half).toNat ∧ (1440 : Half).toNat ≤ 1440 := by decide
theorem witness_SchDayFiresOncePerPeriod :
    ready.sch.latch = false ∧ 1 ≤ (720 : Half).toNat ∧ (720 : Half).toNat ≤ 720 ∧ (720 : Half).toNat ∣ 1440 := by decide
/-- A fire that wraps at midnight with schedule 1; a fire within the day with schedule 2; no fire in the last second, NEXT being
past it or WAIT being set. -/
theorem witness_PschPollFiresWhenNextIsReached :
    ((0 : Byte).toNat ≤ 23 ∧ (0 : Byte).toNat ≤ 59 ∧ 1 ≤ (1 : Half).toNat) ∧
    (ready.psch.next.toNat ≤ 3600 * (0 : Byte).toNat + 60 * (0 : Byte).toNat + (0 : Byte).toNat ∧
      (ready.psch.wait && decide (ready.psch.lastHour.toNat ≤ (0 : Byte).toNat)) = false ∧
      86400 ≤ ready.psch.next.toNat + 86400 / (1 : Half).toNat) ∧
    ready.psch.next.toNat + 86400 / (2 : Half).toNat < 86400 ∧
    ((23 : Byte).toNat ≤ 23 ∧ (59 : Byte).toNat ≤ 59 ∧
      3600 * (23 : Byte).toNat + 60 * (59 : Byte).toNat + (59 : Byte).toNat < (86400 : BitVec 32).toNat) ∧
    (true && decide ((23 : Byte).toNat ≤ (23 : Byte).toNat)) = true := by decide
theorem witness_PschNextStaysBelowOneDay :
    ready.psch.next.toNat < 86400 ∧ (next? (exec (.pschPoll 23 59 59 65535) ready)).isSome = true := by decide
theorem witness_PschDayFiresAtEveryPeriod :
    ready.psch.next = 0 ∧ ready.psch.wait = false ∧ 1 ≤ (43200 : Half).toNat ∧ (43200 : Half).toNat ∣ 86400 := by decide
/-- The next day: WAIT is set and the last hour was 23. -/
theorem witness_PschDayFiresAtEveryPeriod_next :
    { ready with psch := { next := 0, wait := true, lastHour := 23 } }.psch.next = 0 ∧
    { ready with psch := { next := 0, wait := true, lastHour := 23 } }.psch.wait = true ∧
    0 < { ready with psch := { next := 0, wait := true, lastHour := 23 } }.psch.lastHour.toNat ∧
    1 ≤ (65535 : Half).toNat := by decide
theorem witness_OperationsWithoutBuffersTouchNone :
    (next? (exec (.register none none none none) ready)).isSome = true ∧ (next? (exec (.apcDecode 1) ready)).isSome = true ∧
    (next? (exec (.schPoll 23 59 1440) ready)).isSome = true ∧
    (next? (exec (.pschPoll 23 59 59 1) ready)).isSome = true := by decide
/-- One state for each broken duty. -/
theorem witness_BrokenParseDutiesAreRefused :
    encode (.rds (.valid 0x1234)) = some [0x07, 0x12, 0x34] ∧
    (∃ v, Instr.parse false 65 = .parse v (List.replicate 65 (0 : Byte)).length) ∧ { ready with inOutOverlap := true }.inOutOverlap = true ∧
    ({ ready with out := { room := .bytes 12, cells := [] } }.inOutOverlap = false ∧
      { ready with out := { room := .bytes 12, cells := [] } }.out.room.holds 13 = false) ∧
    (ready.inOutOverlap = false ∧ ready.out.room.holds ready.cfg.cap.val = true ∧
      ready.cfg.maxLen < (List.replicate 65 (0 : Byte)).length) ∧
    (ready.parseReady 1 = true ∧ ready.input.readRange 0 1 = none) := by
  refine ⟨?_, ⟨false, rfl⟩, ?_, ?_, ?_, ?_⟩ <;> decide
theorem witness_ShortEoutIsRefused :
    { ready with eout := { room := .bytes 4, cells := [] } }.eout.room.holds 5 = false ∧
    { ready with eout := { room := .bytes 7, cells := [] } }.eout.room.holds 8 = false ∧
    { ready with eout := { room := .bytes 31, cells := [] } }.eout.room.holds 32 = false := by decide
theorem witness_UnregisteredProviderIsRefused :
    unregistered.reg.provValid = false ∧
    (unregistered.parseReady 5 = true ∧ 5 + 4 * (1 : Half).toNat ≤ unregistered.cfg.cap.val ∧ 0 < (1 : Half).toNat) ∧
    (unregistered.parseReady (5 + 4 * [1].length) = true ∧ ([1] : List Value) ≠ []) ∧
    unregistered.parseReady 3 = true ∧ unregistered.parseReady 7 = true ∧
    (unregistered.eout.room.holds 32 = true ∧ (63 : Byte).toNat ≤ 63 ∧ packedField 1 0 ≠ 0) := by decide
theorem witness_BrokenCollaboratorDutiesAreRefused :
    (ready.parseReady 3 = true ∧ ready.reg.provValid = true ∧
      readAnswerProper ({ ready with readAnswers := [⟨7, 0, .proper⟩] }.readAnswer 0) = false) ∧
    (ready.parseReady 7 = true ∧
      writeAnswerProper ({ ready with writeAnswers := [⟨0, .reentersBlock⟩] }.writeAnswer 0 0) = false) ∧
    (ready.parseReady ([5].length + 1) = true ∧ ready.reg.fwValid = true ∧
      handlerAnswerProper 13 ((firmware (answer .ok 14 []) ready).firmwareAnswer [0x29, 5]) = false) ∧
    (ready.reg.cmdValid = true ∧
      handlerAnswerProper 13 ((command ⟨0, 0, [(13, 0)], .proper⟩ ready).commandAnswer [0x27, 5]) = false) ∧
    ((broken ready).reg.provValid = true ∧ readAnswerProper ((broken ready).readAnswer 0) = false ∧
      writeAnswerProper ((broken ready).writeAnswer 0 0) = false) := by decide
/-- The second read of an RDM of two. -/
theorem witness_BrokenCollaboratorDutiesAreRefused_rdm :
    (broken (reading [7] ready)).parseReady 5 = true ∧
    5 + 4 * (2 : Half).toNat ≤ (broken (reading [7] ready)).cfg.cap.val ∧ ([7] : List Value).length < (2 : Half).toNat ∧
    (broken (reading [7] ready)).reg.provValid = true ∧ readsOk 0x0010 [7] 0 (broken (reading [7] ready)) = true ∧
    readAnswerProper ((afterReads 0x0010 ([7] : List Value).length 0 (broken (reading [7] ready))).readAnswer
      (addrAt 0x0010 ([7] : List Value).length)) = false := by decide
/-- The second write of a WRM of three. -/
theorem witness_BrokenCollaboratorDutiesAreRefused_wrm :
    (broken (writing [.ok] ready)).parseReady (5 + 4 * ([1] ++ 2 :: [3] : List Value).length) = true ∧
    ([1] ++ 2 :: [3] : List Value).length < 65536 ∧ (broken (writing [.ok] ready)).reg.provValid = true ∧
    writesOk 0x0030 [1] 0 (broken (writing [.ok] ready)) = true ∧
    writeAnswerProper ((afterWrites 0x0030 [1] 0 (broken (writing [.ok] ready))).writeAnswer
      (addrAt 0x0030 ([1] : List Value).length) 2) = false := by decide
/-- The second read of an ENC_SHORT of two. -/
theorem witness_BrokenCollaboratorDutiesAreRefused_encShort :
    (broken (reading [7] ready)).eout.room.holds 32 = true ∧ (63 : Byte).toNat ≤ 63 ∧
    (broken (reading [7] ready)).reg.provValid = true ∧ unpackAddresses 0x81 = [1] ++ 2 :: [] ∧
    additionalReadsOk [1] [7] (broken (reading [7] ready)) = true ∧
    readAnswerProper ((afterAdditionalReads [1] (broken (reading [7] ready))).readAnswer (additionalAddr 2)) = false := by
  decide
theorem witness_EncShortRefusesAFailingRead :
    (thenFailing .lowLevelError (reading [7] ready)).eout.room.holds 32 = true ∧ (63 : Byte).toNat ≤ 63 ∧
    (thenFailing .lowLevelError (reading [7] ready)).reg.provValid = true ∧ unpackAddresses 0x81 = [1] ++ 2 :: [] ∧
    additionalReadsOk [1] [7] (thenFailing .lowLevelError (reading [7] ready)) = true ∧
    (afterAdditionalReads [1] (thenFailing .lowLevelError (reading [7] ready))).readFails (additionalAddr 2) .lowLevelError
      = true := by decide
theorem witness_PollsOutsideTheirDomainAreRefused :
    23 < (24 : Byte).toNat ∧ 59 < (60 : Byte).toNat ∧ ((0 : Half).toNat = 0 ∧ 1440 < (1441 : Half).toNat) ∧
    (23 : Byte).toNat ≤ 23 ∧ (59 : Byte).toNat ≤ 59 := by decide

end Sys2Proof.Tests
end

/-! SUPPORT. Proofs about the PacketDispatcher: the decoder on any packet, the front end of PARSE, and the answers of UNK
and WRS (R110, R116, R119). -/

namespace Sys2Proof

open Machine

/-! ### The decoder on any packet -/

@[simp] theorem encodeRdm_rdmBody (rest : List Byte) : encodeRdm (rdmBody rest) = rest := by
  unfold rdmBody
  split
  · simp [encodeRdm, be16_u16]
  · rfl

@[simp] theorem encodeWrm_wrmBody (rest : List Byte) : encodeWrm (wrmBody rest) = rest := by
  unfold wrmBody
  split
  · split
    next h =>
      obtain ⟨hbytes, hcount⟩ := encodeValues_wrmValues h
      simp [encodeWrm, be16_u16, hbytes, hcount]
    next => rfl
  · rfl

@[simp] theorem encodeRds_rdsBody (rest : List Byte) : encodeRds (rdsBody rest) = rest := by
  unfold rdsBody
  split
  · simp [encodeRds, be16_u16]
  · rfl

@[simp] theorem encodeWrs_wrsBody (rest : List Byte) : encodeWrs (wrsBody rest) = rest := by
  unfold wrsBody
  split
  · simp [encodeWrs, be16_u16, be32_s32]
  · rfl

@[simp] theorem encodeOpaque_fwuBody (rest : List Byte) : encodeOpaque (fwuBody rest) = rest := by
  cases rest <;> rfl

@[simp] theorem encodeOpaque_ctlBody (rest : List Byte) : encodeOpaque (ctlBody rest) = rest := by
  unfold ctlBody
  split <;> rfl

/-- No byte of a packet is lost by the decoder, whatever its tag and its length. -/
@[simp] theorem encode_decodePacket (tag : Byte) (rest : List Byte) :
    encode (decodePacket tag rest) = some (tag :: rest) := by
  cases e : classify tag with
  | unk => simp [decodePacket, e, encode]
  | rdm | wrm | rds | wrs | fwu | ctl =>
    simp only [decodePacket, e, encode]
    simp [show tag = _ from classify_eq e]

theorem classify_eq_unk {tag : Byte} (hrdm : tag ≠ 0x03) (hwrs : tag ≠ 0x06) (hrds : tag ≠ 0x07) (hwrm : tag ≠ 0x10)
    (hctl : tag ≠ 0x27) (hfwu : tag ≠ 0x29) : classify tag = .unk := by
  cases e : classify tag with
  | unk => rfl
  | rdm => exact absurd (classify_eq e) hrdm
  | wrs => exact absurd (classify_eq e) hwrs
  | rds => exact absurd (classify_eq e) hrds
  | wrm => exact absurd (classify_eq e) hwrm
  | ctl => exact absurd (classify_eq e) hctl
  | fwu => exact absurd (classify_eq e) hfwu

theorem decodePacket_of_unk {tag : Byte} (h : classify tag = .unk) (rest : List Byte) :
    decodePacket tag rest = .unk tag rest := by
  simp [decodePacket, h]

/-- The tags R119 names: 0x20 is not one of the six, R10 bars the six as PAIR_EVENT_TAG, and bits 7 and 6 of each of the six
are clear. -/
theorem classify_of_reserved_tag (cfg : Config) {tag : Byte}
    (h : tag = 0x20 ∨ tag = cfg.pairEventTag.val ∨ tag.getLsbD 7 = true ∨ tag.getLsbD 6 = true) :
    classify tag = .unk := by
  rcases h with rfl | rfl | hbit | hbit
  · rfl
  · have hlegal := cfg.pairEventTag.property
    simp only [legalPairTag, Bool.and_eq_true, Bool.not_eq_true', List.contains_eq_mem, decide_eq_false_iff_not,
      List.mem_cons, not_or] at hlegal
    obtain ⟨-, hrdm, hwrs, hrds, hwrm, -, hctl, hfwu, -⟩ := hlegal
    exact classify_eq_unk hrdm hwrs hrds hwrm hctl hfwu
  all_goals
    apply classify_eq_unk <;> rintro rfl <;> simp at hbit

end Sys2Proof

namespace Sys2Proof.Machine

/-! ### The host's duties -/

theorem parseReady_iff {s : State} {len : Nat} : s.parseReady len = true ↔ parseDuty s len = none := by
  simp [State.parseReady, parseDuty_eq_none, and_assoc]

theorem serve_of_duty {tag : Byte} {len : Nat} {steps : State → Except Refusal (Ending × State)} {s : State}
    {r : Refusal} (d : parseDuty s len = some r) : serve tag len steps s = .refused r := by
  simp [serve, d]

/-- Every request handler is refused for the duty that the host broke with its packet. -/
theorem exec_of_duty {i : Instr} {packet : List Byte} {s : State} {r : Refusal} (h : encode i = some packet)
    (d : parseDuty s packet.length = some r) : exec i s = .refused r := by
  cases i with
  | rdm | wrm | rds | wrs | fwu | ctl | unk =>
    cases h
    simp only [exec, execRdm, execWrm, execRds, execWrs, execFwu, execCtl, execUnk, serve_of_duty d]
  | _ => cases h

/-- A handler that raises at once leaves the error frame and nothing else. -/
theorem serve_raise {tag : Byte} {len : Nat} {c : ErrorCode} {s : State} (h : s.parseReady len = true) :
    serve tag len (fun s => .ok (.raise c, s)) s = .next (raiseError tag c s) :=
  serve_of_ok (e := .raise c) (parseReady_iff.1 h) rfl

/-! ### UNK -/

/-- UNK has one end, whatever follows the tag (R119). -/
theorem exec_unk {tag : Byte} {rest : List Byte} {s : State} (h : s.parseReady (rest.length + 1) = true) :
    exec (.unk tag rest) s = .next (raiseError tag .invalidType s) :=
  serve_raise h

/-! ### PARSE -/

theorem exec_parse_of_duty {inValid : Bool} {len : Nat} {s : State} {r : Refusal} (d : parseDuty s len = some r) :
    exec (.parse inValid len) s = .refused r := by
  change execParse inValid len s = _
  simp [execParse, d]

theorem exec_parse_without_input {inValid : Bool} {len : Nat} {s : State} (d : parseDuty s len = none)
    (h : inValid = false ∨ len = 0) : exec (.parse inValid len) s = .next (s.returns (.length 0)) := by
  change execParse inValid len s = _
  rcases h with rfl | rfl
  · simp [execParse, d]
  · simp [execParse, d, Memory.readRange]

theorem exec_parse_of_duties_kept {len : Nat} {tag : Byte} {rest : List Byte} {s : State} (d : parseDuty s len = none)
    (h : s.input.readRange 0 len = some (tag :: rest)) :
    exec (.parse true len) s = exec (decodePacket tag rest) s := by
  change execParse true len s = _
  simp only [execParse, d, h, decodePacket]
  cases classify tag <;> rfl

/-- PARSE does what the decoded packet's handler does, a refusal for a broken duty included (R110). -/
theorem exec_parse {tag : Byte} {rest : List Byte} {s : State}
    (h : s.input.readRange 0 (rest.length + 1) = some (tag :: rest)) :
    exec (.parse true (rest.length + 1)) s = exec (decodePacket tag rest) s := by
  cases d : parseDuty s (rest.length + 1) with
  | some r => rw [exec_parse_of_duty d, exec_of_duty (encode_decodePacket tag rest) d]
  | none => exact exec_parse_of_duties_kept d h

/-! ### WRS -/

theorem exec_wrs_badLength {rest : List Byte} {s : State} (h : s.parseReady (rest.length + 1) = true) :
    exec (.wrs (.badLength rest)) s = .next (raiseError 0x06 .invalidLength s) :=
  serve_raise h

/-- WRS with a packet of the valid length: the mirror and the one write are the same for every status, which decides only how
the handler ends (R116). -/
theorem exec_wrs_valid {a : Addr} {v : Value} {st : Status} {s : State} (h : s.parseReady 7 = true)
    (hv : s.reg.provValid = true) (hw : s.writeGives a v st = true) :
    exec (.wrs (.valid ⟨a, v⟩)) s = .next
      (finish 0x06 ((s.afterWrite a v).writeOut 0 (0x06 :: (be16 a ++ be32 v))) (endOfStatus 7 st)) := by
  have answer : s.writeAnswer a v = { status := statusNumber st, conduct := .proper } := by
    simpa [State.writeGives] using hw
  have written : adapterWrite true a v (s.writeOut 0 (0x06 :: (be16 a ++ be32 v))) =
      .ok (st, (s.afterWrite a v).writeOut 0 (0x06 :: (be16 a ++ be32 v))) :=
    adapterWrite_of_answer hv (by simp [answer]) (by simp [answer])
  apply serve_of_ok (parseReady_iff.1 h)
  simp only [encodeWrs, written]

end Sys2Proof.Machine

namespace Sys2Proof

open Machine

/-- Settles O18: PARSE decodes every other tag to UNK, and UNK has one end. -/
theorem unknownTagAnswersInvalidType : Obligations.UnknownTagAnswersInvalidType := by
  refine ⟨fun tag rest s ready => exec_unk ready, ?_, fun cfg tag h => classify_eq (classify_of_reserved_tag cfg h)⟩
  intro tag rest s ready input hrdm hwrs hrds hwrm hctl hfwu
  have unknown : classify tag = .unk := classify_eq_unk hrdm hwrs hrds hwrm hctl hfwu
  rw [exec_parse input, decodePacket_of_unk unknown]
  exact exec_unk ready

/-- Settles O25: the write's status decides only how the handler ends, after the mirror and the call. -/
theorem wrsMirrorsBeforeTheWrite : Obligations.WrsMirrorsBeforeTheWrite :=
  ⟨fun _ _ ready => exec_wrs_badLength ready,
   fun _ _ _ ready registered answer => exec_wrs_valid ready registered answer,
   fun _ _ _ _ ready registered answer => exec_wrs_valid ready registered answer⟩

/-- Settles O28: the instruction is the one the decoder reads from the packet. -/
theorem parseRunsTheSelectedHandler : Obligations.ParseRunsTheSelectedHandler := by
  refine ⟨fun inValid len s ready absent => exec_parse_without_input (parseReady_iff.1 ready) absent, ?_⟩
  intro tag rest s input
  refine ⟨decodePacket tag rest, rfl, exec_parse input, ?_, ?_, ?_, ?_, ?_, ?_, ?unknown⟩
  case unknown =>
    intro hrdm hwrm hrds hwrs hfwu hctl
    exact decodePacket_of_unk (classify_eq_unk hrdm hwrs hrds hwrm hctl hfwu) rest
  all_goals
    rintro rfl
    exact ⟨_, rfl⟩

end Sys2Proof

/-! SUPPORT. Proofs about the message encoders of fixed length (R172, R173). -/

namespace Sys2Proof.Machine

/-- An encoder whose minimum EOUT holds writes its message at offset 0 and gives back its length (R170). -/
theorem emit_of_room {message : List Byte} {n : Nat} {s : State} (len : message.length = n)
    (room : s.eout.room.holds n = true) :
    emit message s = .next ((s.writeEout 0 message).returns (.length n)) := by
  subst len
  simp [emit, room]

theorem exec_encEvent (eventId payload : Half) (s : State) :
    exec (.encEvent eventId payload) s = emit (eventMessage eventId payload) s := rfl

theorem exec_encPair (parameterId : Byte) (value : Word) (diff : Half) (s : State) :
    exec (.encPair parameterId value diff) s = emit (pairMessage s.cfg.pairEventTag.val parameterId value diff) s :=
  rfl

end Sys2Proof.Machine

namespace Sys2Proof

open Machine

/-- Settles O37: ENC_EVENT emits the Event message, whose length is the minimum that EOUT holds. -/
theorem encEventBuildsFiveBytes : Obligations.EncEventBuildsFiveBytes := by
  intro eventId payload s room
  rw [exec_encEvent, emit_of_room (eventMessage_length eventId payload) room]
  simp only [State.writeEout, State.returns, eventMessage]

/-- Settles O39: ENC_PAIR emits the PairEvent message under the configured tag; its length is the minimum that EOUT
holds. -/
theorem encPairBuildsEightBytes : Obligations.EncPairBuildsEightBytes := by
  intro parameterId value diff s room
  rw [exec_encPair, emit_of_room (pairMessage_length s.cfg.pairEventTag.val parameterId value diff) room]
  simp only [State.writeEout, State.returns, pairMessage]

end Sys2Proof

/-! SUPPORT. Proofs about the additional-parameter codec (R190, R192): each iteration is read as integer division. -/

namespace Sys2Proof.Machine

/-- `rem & 0x3F` of R190, on the two's-complement integer. -/
theorem toNat_lowSix (rem : Word) : ((rem.extractLsb' 0 6).toNat : Int) = rem.toInt % 64 := by
  simp only [BitVec.extractLsb'_toNat, BitVec.toInt_eq_toNat_cond]
  omega

theorem lowSix_eq_zero_iff (rem : Word) : rem.extractLsb' 0 6 = 0 ↔ rem.toInt % 64 = 0 := by
  rw [← toNat_lowSix, Int.natCast_eq_zero, ← BitVec.toNat_inj]
  rfl

/-- The step of R190's loop: what j more shifts leave after the first is what j + 1 shifts leave. -/
theorem toInt_sshiftRight_six_div (rem : Word) (j : Nat) :
    (rem.sshiftRight 6).toInt / 2 ^ (6 * j) = rem.toInt / 2 ^ (6 * (j + 1)) := by
  rw [BitVec.toInt_sshiftRight, Int.shiftRight_eq_div_pow, Int.ediv_ediv_of_nonneg (by simp), Nat.mul_add_one,
    Nat.add_comm, pow_add]
  rfl

theorem unpackFields_of_zero {n : Nat} {rem : Word} (h : rem.extractLsb' 0 6 = 0) : unpackFields n rem = [] := by
  cases n with
  | zero => rfl
  | succ n => simp only [unpackFields, h, if_true]

theorem unpackFields_of_ne_zero {n : Nat} {rem : Word} (h : rem.extractLsb' 0 6 ≠ 0) :
    unpackFields (n + 1) rem = rem.extractLsb' 0 6 :: unpackFields n (rem.sshiftRight 6) := by
  simp only [unpackFields, if_neg h]

theorem unpackFields_length_le (n : Nat) (rem : Word) : (unpackFields n rem).length ≤ n := by
  induction n generalizing rem with
  | zero => exact Nat.le_refl 0
  | succ n ih =>
    by_cases h : rem.extractLsb' 0 6 = 0
    · simp [unpackFields_of_zero h]
    · simpa [unpackFields_of_ne_zero h] using ih (rem.sshiftRight 6)

/-- Address 0 cannot be expressed (R192). -/
theorem ne_zero_of_mem_unpackFields {n : Nat} {rem : Word} {a : SixBit} (mem : a ∈ unpackFields n rem) : a ≠ 0 := by
  induction n generalizing rem with
  | zero => cases mem
  | succ n ih =>
    by_cases h : rem.extractLsb' 0 6 = 0
    · simp [unpackFields_of_zero h] at mem
    · rw [unpackFields_of_ne_zero h] at mem
      cases mem with
      | head => exact h
      | tail _ later => exact ih later

theorem unpackFields_getElem {n : Nat} {rem : Word} {j : Nat} (h : j < (unpackFields n rem).length) :
    ((unpackFields n rem)[j].toNat : Int) = rem.toInt / 2 ^ (6 * j) % 64 := by
  induction n generalizing rem j with
  | zero => cases h
  | succ n ih =>
    by_cases zero : rem.extractLsb' 0 6 = 0
    · simp [unpackFields_of_zero zero] at h
    · simp only [unpackFields_of_ne_zero zero] at h ⊢
      cases j with
      | zero => simpa using toNat_lowSix rem
      | succ j =>
        rw [List.getElem_cons_succ, ih (Nat.lt_of_succ_lt_succ h), toInt_sshiftRight_six_div]

/-- A list shorter than the loop's bound ends at a zero field, which is not skipped (R192). -/
theorem unpackFields_ends_at_zero {n : Nat} {rem : Word} (short : (unpackFields n rem).length < n) :
    rem.toInt / 2 ^ (6 * (unpackFields n rem).length) % 64 = 0 := by
  induction n generalizing rem with
  | zero => cases short
  | succ n ih =>
    by_cases h : rem.extractLsb' 0 6 = 0
    · simpa [unpackFields_of_zero h] using (lowSix_eq_zero_iff rem).1 h
    · rw [unpackFields_of_ne_zero h, List.length_cons] at short ⊢
      rw [← toInt_sshiftRight_six_div]
      exact ih (Nat.lt_of_succ_lt_succ short)

theorem exec_apcDecode (packed : Word) (s : State) :
    exec (.apcDecode packed) s = .next { s with result := .addresses (unpackFields 5 packed) } := rfl

end Sys2Proof.Machine

namespace Sys2Proof

open Machine

/-- Settles O44: the addresses are the fields of R190's loop, each lemma above by induction on its iterations. -/
theorem apcDecodeStopsAtTheFirstZero : Obligations.ApcDecodeStopsAtTheFirstZero := by
  intro packed s
  refine ⟨unpackFields 5 packed, exec_apcDecode packed s, unpackFields_length_le 5 packed, ?_,
    unpackFields_ends_at_zero⟩
  intro j h
  have nonzero : (unpackFields 5 packed)[j].toNat ≠ 0 :=
    BitVec.toNat_ne_iff_ne.2 (ne_zero_of_mem_unpackFields (List.getElem_mem h))
  have sixBits : (unpackFields 5 packed)[j].toNat < 64 := (unpackFields 5 packed)[j].isLt
  exact ⟨unpackFields_getElem h, by omega, by omega⟩

end Sys2Proof

/-! SUPPORT. Proofs about the encoding of requests: decoder and encoder are inverse to each other, the layouts as numbers, the
numbers of the status codes (R13, R16, R82, R91, R94). -/

namespace Sys2Proof

open Machine

/-! ### Each body, decoded from its own encoding -/

theorem rdmBody_encodeRdm {b : Body RdmFields} (h : b.fixedLength 4 = true) : rdmBody (encodeRdm b) = b := by
  cases b with
  | valid f => simp [encodeRdm, be16, rdmBody, u16_be16]
  | badLength rest =>
    simp only [encodeRdm, rdmBody]
    split
    · simp [Body.fixedLength] at h
    · rfl

theorem rdsBody_encodeRds {b : Body Addr} (h : b.fixedLength 2 = true) : rdsBody (encodeRds b) = b := by
  cases b with
  | valid a => simp [encodeRds, be16, rdsBody, u16_be16]
  | badLength rest =>
    simp only [encodeRds, rdsBody]
    split
    · simp [Body.fixedLength] at h
    · rfl

theorem wrsBody_encodeWrs {b : Body WrsFields} (h : b.fixedLength 6 = true) : wrsBody (encodeWrs b) = b := by
  cases b with
  | valid f => simp [encodeWrs, be16, be32, wrsBody, u16_be16, s32_be32]
  | badLength rest =>
    simp only [encodeWrs, wrsBody]
    split
    · simp [Body.fixedLength] at h
    · rfl

/-- The decoder's own test of a WRM packet's length is the one of well-formedness. -/
theorem wrmBody_of_invalid_length {rest : List Byte} (h : wrmLengthValid rest = false) :
    wrmBody rest = .badLength rest := by
  unfold wrmBody
  split
  · split
    next valid => simp [wrmLengthValid, valid] at h
    next => rfl
  · rfl

theorem wrmBody_encodeWrm {b : Body WrmFields} (h : (Instr.wrm b).wellFormed = true) : wrmBody (encodeWrm b) = b := by
  cases b with
  | valid f =>
    have count : f.values.length % 65536 = f.values.length :=
      Nat.mod_eq_of_lt (by simpa [Instr.wellFormed] using h)
    simp [encodeWrm, be16, wrmBody, u16_be16, count]
  | badLength rest =>
    have invalid : wrmLengthValid rest = false := by simpa [Instr.wellFormed] using h
    exact wrmBody_of_invalid_length invalid

theorem fwuBody_encodeOpaque {b : Body (List Byte)} (h : (Instr.fwu b).wellFormed = true) :
    fwuBody (encodeOpaque b) = b := by
  cases b with
  | valid body =>
    cases body with
    | nil => cases h
    | cons first more => rfl
  | badLength rest =>
    obtain rfl : rest = [] := by simpa [Instr.wellFormed] using h
    rfl

theorem ctlBody_encodeOpaque {b : Body (List Byte)} (h : (Instr.ctl b).wellFormed = true) :
    ctlBody (encodeOpaque b) = b := by
  cases b with
  | valid body =>
    have six : body.length = 6 := by simpa [Instr.wellFormed] using h
    simp [encodeOpaque, ctlBody, six]
  | badLength rest =>
    have other : rest.length ≠ 6 := by simpa [Instr.wellFormed] using h
    simp [encodeOpaque, ctlBody, other]

/-! ### Each decoded body is well formed -/

theorem rdmBody_fixedLength (rest : List Byte) : (rdmBody rest).fixedLength 4 = true := by
  unfold rdmBody
  split
  · rfl
  next other =>
    simp only [Body.fixedLength, bne_iff_ne, ne_eq]
    intro four
    obtain ⟨s1, s0, c1, c0, rfl⟩ := List.length_eq_four.1 four
    exact other _ _ _ _ rfl

theorem rdsBody_fixedLength (rest : List Byte) : (rdsBody rest).fixedLength 2 = true := by
  unfold rdsBody
  split
  · rfl
  next other =>
    simp only [Body.fixedLength, bne_iff_ne, ne_eq]
    intro two
    obtain ⟨a1, a0, rfl⟩ := List.length_eq_two.1 two
    exact other _ _ rfl

theorem wrsBody_fixedLength (rest : List Byte) : (wrsBody rest).fixedLength 6 = true := by
  unfold wrsBody
  split
  · rfl
  next other =>
    simp only [Body.fixedLength, bne_iff_ne, ne_eq]
    intro six
    match rest, six with
    | [a1, a0, b0, b1, b2, b3], _ => exact other _ _ _ _ _ _ rfl

theorem wellFormed_wrmBody (rest : List Byte) : (Instr.wrm (wrmBody rest)).wellFormed = true := by
  cases valid : wrmLengthValid rest with
  | false => simp [wrmBody_of_invalid_length valid, Instr.wellFormed, valid]
  | true =>
    unfold wrmLengthValid at valid
    split at valid
    next s1 s0 c1 c0 values =>
      have len : values.length = 4 * (u16 c1 c0).toNat := by simpa using valid
      have count := (encodeValues_wrmValues len).2
      simpa [wrmBody, len, Instr.wellFormed, count] using (u16 c1 c0).isLt
    next => cases valid

theorem wellFormed_fwuBody (rest : List Byte) : (Instr.fwu (fwuBody rest)).wellFormed = true := by
  cases rest <;> rfl

theorem wellFormed_ctlBody (rest : List Byte) : (Instr.ctl (ctlBody rest)).wellFormed = true := by
  unfold ctlBody
  split
  next six => simp [Instr.wellFormed, six]
  next other => simp [Instr.wellFormed, other]

theorem wellFormed_decodePacket (tag : Byte) (rest : List Byte) : (decodePacket tag rest).wellFormed = true := by
  cases e : classify tag with
  | rdm => simp [decodePacket, e, Instr.wellFormed, rdmBody_fixedLength]
  | wrm => simpa [decodePacket, e] using wellFormed_wrmBody rest
  | rds => simp [decodePacket, e, Instr.wellFormed, rdsBody_fixedLength]
  | wrs => simp [decodePacket, e, Instr.wellFormed, wrsBody_fixedLength]
  | fwu => simpa [decodePacket, e] using wellFormed_fwuBody rest
  | ctl => simpa [decodePacket, e] using wellFormed_ctlBody rest
  | unk => simp [decodePacket, e, Instr.wellFormed]

/-- A packet that decodes has a tag and is decoded by it. -/
theorem decode_eq_ok {bs : List Byte} {i : Instr} (h : decode bs = .ok i) :
    ∃ tag rest, bs = tag :: rest ∧ i = decodePacket tag rest := by
  cases bs with
  | nil => cases h
  | cons tag rest => cases h; exact ⟨tag, rest, rfl, rfl⟩

/-- Settles O1: by the request, each body being decoded from its own encoding. -/
theorem decodeInvertsEncode : Obligations.DecodeInvertsEncode := by
  intro i bs wf packet
  cases i with
  | rdm b => cases packet; exact congrArg (Except.ok ∘ Instr.rdm) (rdmBody_encodeRdm wf)
  | rds b => cases packet; exact congrArg (Except.ok ∘ Instr.rds) (rdsBody_encodeRds wf)
  | wrs b => cases packet; exact congrArg (Except.ok ∘ Instr.wrs) (wrsBody_encodeWrs wf)
  | wrm b => cases packet; exact congrArg (Except.ok ∘ Instr.wrm) (wrmBody_encodeWrm wf)
  | fwu b => cases packet; exact congrArg (Except.ok ∘ Instr.fwu) (fwuBody_encodeOpaque wf)
  | ctl b => cases packet; exact congrArg (Except.ok ∘ Instr.ctl) (ctlBody_encodeOpaque wf)
  | unk tag rest =>
    cases packet
    exact congrArg Except.ok (decodePacket_of_unk (by simpa [Instr.wellFormed] using wf) rest)
  | _ => cases packet

/-- Settles O2: each body is well formed as decoded, and no byte is lost. -/
theorem encodeInvertsDecode : Obligations.EncodeInvertsDecode := by
  intro i bs decoded
  obtain ⟨tag, rest, rfl, rfl⟩ := decode_eq_ok decoded
  exact ⟨wellFormed_decodePacket tag rest, encode_decodePacket tag rest⟩

/-- Settles O3: the six tags select by the tag map, every other one is UNK's. -/
theorem tagSelectsTheHandler : Obligations.TagSelectsTheHandler := by
  intro rest
  refine ⟨⟨_, rfl⟩, ⟨_, rfl⟩, ⟨_, rfl⟩, ⟨_, rfl⟩, ⟨_, rfl⟩, ⟨_, rfl⟩, ?_⟩
  intro tag hrdm hwrs hrds hwrm hctl hfwu
  exact congrArg Except.ok (decodePacket_of_unk (classify_eq_unk hrdm hwrs hrds hwrm hctl hfwu) rest)

/-- Settles O4: each packet is evaluated. -/
theorem writtenPacketsDecode : Obligations.WrittenPacketsDecode := by
  refine ⟨?_, ?_, ?_, ?_, ?_, ?_, ?_⟩ <;> decide

/-! ### The layouts as numbers -/

theorem toNat_u16 (b0 b1 : Byte) : (u16 b0 b1).toNat = 256 * b0.toNat + b1.toNat := by
  have := b0.isLt
  have := b1.isLt
  simp only [u16, BitVec.toNat_ofNat]
  omega

theorem extractByte_eq {n : Nat} (v : BitVec n) (k : Nat) : v.extractLsb' k 8 = BitVec.ofNat 8 (v.toNat / 2 ^ k) := by
  apply BitVec.eq_of_toNat_eq
  simp [BitVec.extractLsb'_toNat, Nat.shiftRight_eq_div_pow]

/-- Settles O5: each byte of a field is a quotient of its number. -/
theorem fieldsAreBigEndian : Obligations.FieldsAreBigEndian := by
  refine ⟨toNat_u16, ?_, ?_, ?_⟩
  · intro b0 b1 b2 b3
    simp [s32, BitVec.toInt_ofNat']
  · intro v
    simp [be16, extractByte_eq]
  · intro v
    simp [be32, extractByte_eq]

/-- Settles O6: the two tables of the numbers are inverse to each other. -/
theorem statusCodesAreNumbered : Obligations.StatusCodesAreNumbered := by
  refine ⟨rfl, rfl, rfl, rfl, rfl, rfl, rfl, fun b st => ⟨statusNumber_of_statusOfNumber, ?_⟩⟩
  rintro rfl
  exact statusOfNumber_statusNumber st

end Sys2Proof

/-! SUPPORT. Proofs about the step and the machine after reset (R6, R30, R110, R280). -/

namespace Sys2Proof

open Machine

/-- Settles O7: the host's list is empty, or its first operation overlaps another one, or it is executed. -/
theorem stepRunsTheNextHostOperation : Obligations.StepRunsTheNextHostOperation :=
  ⟨fun _ => step_of_nil,
   fun _ _ _ pending mark => step_of_overlapped pending (overlapped_of_mark _ mark),
   fun _ _ _ _ pending mark => step_of_overlapped pending (overlapped_of_next _ mark),
   fun _ _ _ pending first next => step_of_serial pending (overlapped_eq_false.2 ⟨first, next⟩)⟩

/-- Settles O8: the step executes the PARSE, which does what the decoded request does. -/
theorem stepRunsTheDecodedPacket : Obligations.StepRunsTheDecodedPacket := by
  intro s c rest bs i pending first next op input decoded
  obtain ⟨tag, body, rfl, rfl⟩ := decode_eq_ok decoded
  rw [step_of_serial pending (overlapped_eq_false.2 ⟨first, next⟩), op]
  exact exec_parse input

/-- Settles O9: the reset state is evaluated. -/
theorem resetLeavesTheStatedValues : Obligations.ResetLeavesTheStatedValues :=
  ⟨rfl, rfl, rfl, rfl, rfl, rfl, rfl, rfl, rfl, rfl, rfl⟩

/-- Settles O10: nothing is registered, the byte spaces are empty, NEXT and LASTHOUR are 0. -/
theorem resetMeetsTheInvariant : Obligations.ResetMeetsTheInvariant := by
  change State.reset.inv = true
  decide

end Sys2Proof

/-! SUPPORT. What the request handlers compute, one equation for each, and the blocks of calls that are all answered Ok
(R112 to R118, R176). -/

namespace Sys2Proof.Machine

/-! ### The steps of a handler -/

/-- The outcome of a request handler whose host kept the duties, from what its own steps give. -/
def outcomeOf (tag : Byte) : Except Refusal (Ending × State) → Host.Outcome State Fault Refusal
  | .error r => .refused r
  | .ok (e, t) => .next (finish tag t e)

theorem serve_of_ready {tag : Byte} {len : Nat} {steps : State → Except Refusal (Ending × State)} {s : State}
    {x : Except Refusal (Ending × State)} (ready : s.parseReady len = true) (h : steps s = x) :
    serve tag len steps s = outcomeOf tag x := by
  subst h
  rw [serve, parseReady_iff.1 ready]
  rfl

theorem serve_of_raise {tag : Byte} {len : Nat} {steps : State → Except Refusal (Ending × State)} {s : State}
    {c : ErrorCode} (ready : s.parseReady len = true) (h : steps s = .ok (.raise c, s)) :
    serve tag len steps s = .next (raiseError tag c s) :=
  serve_of_ready ready h

/-- What a handler does to a request that has no structural error: the echo of the header and the calls (R113 to R118).
No other operation has such steps. -/
def handlerSteps (s : State) : Instr → Except Refusal (Ending × State)
  | .rdm (.valid f) =>
    (readBlock f.start f.count.toNat 0 (s.writeOut 0 (0x03 :: (be16 f.start ++ be16 f.count)))).map
      (endOfBlock (multiLength f.count.toNat))
  | .wrm (.valid f) =>
    (writeBlock f.start f.values 0
      (s.writeOut 0 (0x10 :: (be16 f.start ++ be16 (BitVec.ofNat 16 f.values.length))))).map (endOfBlock 5)
  | .rds (.valid a) =>
    (adapterRead true a (s.writeOut 0 (0x07 :: be16 a))).map
      (fun r => (endOfStatus 7 r.1, r.2.2.writeOut 3 (be32 r.2.1)))
  | .wrs (.valid f) =>
    (adapterWrite true f.addr f.value (s.writeOut 0 (0x06 :: (be16 f.addr ++ be32 f.value)))).map
      (fun r => (endOfStatus 7 r.1, r.2))
  | .fwu (.valid body) => callFirmware (0x29 :: body) s
  | .ctl (.valid body) => callCommand (0x27 :: body) s
  | _ => .ok (.ret 0, s)

/-- A request without a structural error does its handler's steps. -/
theorem exec_of_steps {i : Instr} {tag : Byte} {rest : List Byte} {s : State} (packet : encode i = some (tag :: rest))
    (ready : s.parseReady (rest.length + 1) = true) (none : structuralError s i = none) :
    exec i s = outcomeOf tag (handlerSteps s i) := by
  cases i with
  | rdm b =>
    cases packet
    cases b with
    | badLength bytes => cases none
    | valid f =>
      have fits : ¬ s.cfg.cap.val < multiLength f.count.toNat := by simpa [structuralError] using none
      have header : (0x03 :: encodeRdm (.valid f)).take 5 = 0x03 :: (be16 f.start ++ be16 f.count) := rfl
      apply serve_of_ready ready
      simp only [if_neg fits, handlerSteps, header]
      cases readBlock f.start f.count.toNat 0 _ <;> rfl
  | wrm b =>
    cases packet
    cases b with
    | badLength bytes => cases none
    | valid f =>
      have header : (0x10 :: encodeWrm (.valid f)).take 5 =
          0x10 :: (be16 f.start ++ be16 (BitVec.ofNat 16 f.values.length)) := rfl
      apply serve_of_ready ready
      simp only [handlerSteps, header]
      cases writeBlock f.start f.values 0 _ <;> rfl
  | rds b =>
    cases packet
    cases b with
    | badLength bytes => cases none
    | valid a =>
      have header : (0x07 :: encodeRds (.valid a)).take 3 = 0x07 :: be16 a := rfl
      apply serve_of_ready ready
      simp only [handlerSteps, header]
      cases adapterRead true a _ <;> rfl
  | wrs b =>
    cases packet
    cases b with
    | badLength bytes => cases none
    | valid f =>
      apply serve_of_ready ready
      simp only [handlerSteps, encodeWrs]
      cases adapterWrite true f.addr f.value _ <;> rfl
  | fwu b =>
    cases packet
    cases b with
    | badLength bytes => cases none
    | valid body =>
      have present : s.reg.fwValid = true := by simpa [structuralError] using none
      apply serve_of_ready ready
      exact if_neg (by simp [present])
  | ctl b =>
    cases packet
    cases b with
    | badLength bytes => cases none
    | valid body =>
      have present : s.reg.cmdValid = true := by simpa [structuralError] using none
      apply serve_of_ready ready
      exact if_neg (by simp [present])
  | unk => cases none
  | _ => cases packet

/-- A request with a structural error is answered with the error frame before any step of its handler (R120). -/
theorem exec_of_structuralError {i : Instr} {tag : Byte} {rest : List Byte} {c : ErrorCode} {s : State}
    (packet : encode i = some (tag :: rest)) (ready : s.parseReady (rest.length + 1) = true)
    (error : structuralError s i = some c) : exec i s = .next (raiseError tag c s) := by
  cases i with
  | rdm b =>
    cases packet
    cases b with
    | badLength bytes => cases error; exact serve_raise ready
    | valid f =>
      simp only [structuralError, Option.ite_none_right_eq_some, Option.some.injEq] at error
      obtain ⟨large, rfl⟩ := error
      apply serve_of_raise ready
      exact if_pos large
  | fwu b =>
    cases packet
    cases b with
    | badLength bytes => cases error; exact serve_raise ready
    | valid body =>
      simp only [structuralError, Option.ite_none_left_eq_some, Option.some.injEq, Bool.not_eq_true] at error
      obtain ⟨absent, rfl⟩ := error
      apply serve_of_raise ready
      exact if_pos absent
  | ctl b =>
    cases packet
    cases b with
    | badLength bytes => cases error; exact serve_raise ready
    | valid body =>
      simp only [structuralError, Option.ite_none_left_eq_some, Option.some.injEq, Bool.not_eq_true] at error
      obtain ⟨absent, rfl⟩ := error
      apply serve_of_raise ready
      exact if_pos absent
  | wrm b | rds b | wrs b =>
    cases packet
    cases b with
    | badLength bytes => cases error; exact serve_raise ready
    | valid f => cases error
  | unk tag rest => cases packet; cases error; exact exec_unk ready
  | _ => cases packet

theorem exec_err {tag : Byte} {c : ErrorCode} {s : State} (ready : s.parseReady 1 = true) :
    exec (.err tag c) s = .next (raiseError tag c s) :=
  serve_raise ready

/-! ### One equation for each request of the valid length -/

theorem exec_rdm_valid {start : Addr} {count : Half} {s : State} (ready : s.parseReady 5 = true)
    (fits : 5 + 4 * count.toNat ≤ s.cfg.cap.val) :
    exec (.rdm (.valid ⟨start, count⟩)) s = outcomeOf 0x03 (handlerSteps s (.rdm (.valid ⟨start, count⟩))) :=
  exec_of_steps rfl ready (if_neg (Nat.not_lt.2 fits))

theorem exec_wrm_valid {start : Addr} {vs : List Value} {s : State}
    (ready : s.parseReady (5 + 4 * vs.length) = true) :
    exec (.wrm (.valid ⟨start, vs⟩)) s = outcomeOf 0x10 (handlerSteps s (.wrm (.valid ⟨start, vs⟩))) := by
  refine exec_of_steps rfl ?_ rfl
  have len : (encodeWrm (.valid ⟨start, vs⟩)).length + 1 = 5 + 4 * vs.length := by
    simp only [encodeWrm, List.length_append, be16_length, encodeValues_length]
    omega
  rwa [len]

theorem exec_rds_valid {a : Addr} {s : State} (ready : s.parseReady 3 = true) :
    exec (.rds (.valid a)) s = outcomeOf 0x07 (handlerSteps s (.rds (.valid a))) :=
  exec_of_steps rfl ready rfl

theorem exec_wrs_steps {a : Addr} {v : Value} {s : State} (ready : s.parseReady 7 = true) :
    exec (.wrs (.valid ⟨a, v⟩)) s = outcomeOf 0x06 (handlerSteps s (.wrs (.valid ⟨a, v⟩))) :=
  exec_of_steps rfl ready rfl

theorem exec_fwu_valid {body : List Byte} {s : State} (ready : s.parseReady (body.length + 1) = true)
    (present : s.reg.fwValid = true) :
    exec (.fwu (.valid body)) s = outcomeOf 0x29 (callFirmware (0x29 :: body) s) :=
  exec_of_steps rfl ready (if_pos present)

theorem exec_ctl_valid {body : List Byte} {s : State} (ready : s.parseReady (body.length + 1) = true)
    (present : s.reg.cmdValid = true) :
    exec (.ctl (.valid body)) s = outcomeOf 0x27 (callCommand (0x27 :: body) s) :=
  exec_of_steps rfl ready (if_pos present)

/-! ### Single calls -/

theorem adapterRead_of_readOk {a : Addr} {v : Value} {s : State} (registered : s.reg.provValid = true)
    (answer : s.readOk a v = true) : adapterRead true a s = .ok (.ok, v, s.afterRead a) := by
  have given : s.readAnswer a = { status := 0, value := v, conduct := .proper } := by
    simpa [State.readOk] using answer
  simpa [given] using adapterRead_of_ok (a := a) registered (by simp [given]) (by simp [given])

theorem adapterRead_of_readFails {a : Addr} {c : ErrorCode} {s : State} (registered : s.reg.provValid = true)
    (answer : s.readFails a c = true) :
    adapterRead true a s = .ok (.error c, s.freeValue, (s.afterRead a).useFree) := by
  obtain ⟨proper, status⟩ : (s.readAnswer a).conduct = .proper ∧ (s.readAnswer a).status = errorNumber c := by
    simpa [State.readFails] using answer
  exact adapterRead_of_error registered proper status

theorem adapterRead_of_unregistered {a : Addr} {s : State} (h : s.reg.provValid = false) :
    adapterRead true a s = .error .providerNotRegistered := by
  simp [adapterRead, h]

theorem adapterWrite_of_writeGives {a : Addr} {v : Value} {st : Status} {s : State}
    (registered : s.reg.provValid = true) (answer : s.writeGives a v st = true) :
    adapterWrite true a v s = .ok (st, s.afterWrite a v) := by
  have given : s.writeAnswer a v = { status := statusNumber st, conduct := .proper } := by
    simpa [State.writeGives] using answer
  exact adapterWrite_of_answer registered (by simp [given]) (by simp [given])

theorem adapterWrite_of_unregistered {a : Addr} {v : Value} {s : State} (h : s.reg.provValid = false) :
    adapterWrite true a v s = .error .providerNotRegistered := by
  simp [adapterWrite, h]

/-- A change of the state that the provider's read does not see passes through the adapter's read. -/
theorem adapterRead_map {f : State → State} {bufValid : Bool} {a : Addr} {s : State}
    (answer : (f s).readAnswer a = s.readAnswer a) (slot : (f s).reg = s.reg) (free : (f s).freeValue = s.freeValue)
    (after : (f s).afterRead a = f (s.afterRead a)) (used : ∀ t, (f t).useFree = f t.useFree) :
    adapterRead bufValid a (f s) = (adapterRead bufValid a s).map (fun p => (p.1, p.2.1, f p.2.2)) := by
  unfold adapterRead
  rw [answer, slot, free, after, used, used]
  split
  · rfl
  · split
    · rfl
    · split <;> rfl

/-- A change of the state that the provider's write does not see passes through the adapter's write. -/
theorem adapterWrite_map {f : State → State} {bufValid : Bool} {a : Addr} {v : Value} {s : State}
    (answer : (f s).writeAnswer a v = s.writeAnswer a v) (slot : (f s).reg = s.reg)
    (after : (f s).afterWrite a v = f (s.afterWrite a v)) :
    adapterWrite bufValid a v (f s) = (adapterWrite bufValid a v s).map (fun p => (p.1, f p.2)) := by
  unfold adapterWrite
  rw [answer, slot, after]
  split
  · rfl
  · split
    · rfl
    · split <;> rfl

theorem adapterRead_writeOut (bufValid : Bool) (a : Addr) (s : State) (k : Nat) (bs : List Byte) :
    adapterRead bufValid a (s.writeOut k bs) =
      (adapterRead bufValid a s).map (fun p => (p.1, p.2.1, p.2.2.writeOut k bs)) :=
  adapterRead_map (f := fun t => t.writeOut k bs) rfl rfl rfl rfl fun _ => rfl

theorem adapterRead_writeEout (bufValid : Bool) (a : Addr) (s : State) (k : Nat) (bs : List Byte) :
    adapterRead bufValid a (s.writeEout k bs) =
      (adapterRead bufValid a s).map (fun p => (p.1, p.2.1, p.2.2.writeEout k bs)) :=
  adapterRead_map (f := fun t => t.writeEout k bs) rfl rfl rfl rfl fun _ => rfl

theorem adapterWrite_writeOut (bufValid : Bool) (a : Addr) (v : Value) (s : State) (k : Nat) (bs : List Byte) :
    adapterWrite bufValid a v (s.writeOut k bs) =
      (adapterWrite bufValid a v s).map (fun p => (p.1, p.2.writeOut k bs)) :=
  adapterWrite_map (f := fun t => t.writeOut k bs) rfl rfl rfl

theorem handlerStatus_of_handlerGives {cap : Nat} {st : Status} {ans : HandlerAnswer}
    (h : handlerGives cap st ans = true) : handlerStatus cap ans = .ok st := by
  rw [handlerStatus_eq_ok]
  simpa [handlerGives, and_assoc] using h

/-- A handler that keeps its duties decides by its status how FWU ends. -/
theorem callFirmware_of_handlerGives {p : List Byte} {st : Status} {s : State}
    (h : handlerGives s.cfg.cap.val st (s.firmwareAnswer p) = true) :
    callFirmware p s = .ok (endOfStatus (s.firmwareAnswer p).written st, s.afterFirmware p) := by
  cases st <;> simp [callFirmware, handlerStatus_of_handlerGives h, endOfStatus]

theorem callCommand_of_handlerGives {p : List Byte} {st : Status} {s : State}
    (h : handlerGives s.cfg.cap.val st (s.commandAnswer p) = true) :
    callCommand p s = .ok (endOfStatus (s.commandAnswer p).written st, s.afterCommand p) := by
  cases st <;> simp [callCommand, handlerStatus_of_handlerGives h, endOfStatus]

/-! ### The states after a block of calls -/

theorem afterReads_writeOut (start : Addr) (n i k : Nat) (bs : List Byte) (s : State) :
    afterReads start n i (s.writeOut k bs) = (afterReads start n i s).writeOut k bs := by
  induction n generalizing i s with
  | zero => rfl
  | succ n ih => simp only [afterReads, State.afterRead_writeOut, ih]

@[simp] theorem afterReads_out (start : Addr) (n i : Nat) (s : State) : (afterReads start n i s).out = s.out := by
  induction n generalizing i s with
  | zero => rfl
  | succ n ih => simp [afterReads, ih]

@[simp] theorem afterReads_reg (start : Addr) (n i : Nat) (s : State) : (afterReads start n i s).reg = s.reg := by
  induction n generalizing i s with
  | zero => rfl
  | succ n ih => simp [afterReads, ih]

@[simp] theorem afterReads_freeCount (start : Addr) (n i : Nat) (s : State) :
    (afterReads start n i s).freeCount = s.freeCount := by
  induction n generalizing i s with
  | zero => rfl
  | succ n ih => simp [afterReads, ih]

@[simp] theorem readsOk_writeOut (start : Addr) (vs : List Value) (i k : Nat) (bs : List Byte) (s : State) :
    readsOk start vs i (s.writeOut k bs) = readsOk start vs i s := by
  induction vs generalizing i s with
  | nil => rfl
  | cons v vs ih => exact congrArg (s.readOk (addrAt start i) v && ·) (ih (i + 1) (s.afterRead (addrAt start i)))

theorem afterWrites_writeOut (start : Addr) (vs : List Value) (i k : Nat) (bs : List Byte) (s : State) :
    afterWrites start vs i (s.writeOut k bs) = (afterWrites start vs i s).writeOut k bs := by
  induction vs generalizing i s with
  | nil => rfl
  | cons v vs ih => simp only [afterWrites, State.afterWrite_writeOut, ih]

@[simp] theorem afterWrites_out (start : Addr) (vs : List Value) (i : Nat) (s : State) :
    (afterWrites start vs i s).out = s.out := by
  induction vs generalizing i s with
  | nil => rfl
  | cons v vs ih => simp [afterWrites, ih]

@[simp] theorem afterWrites_reg (start : Addr) (vs : List Value) (i : Nat) (s : State) :
    (afterWrites start vs i s).reg = s.reg := by
  induction vs generalizing i s with
  | nil => rfl
  | cons v vs ih => simp [afterWrites, ih]

@[simp] theorem writesOk_writeOut (start : Addr) (vs : List Value) (i k : Nat) (bs : List Byte) (s : State) :
    writesOk start vs i (s.writeOut k bs) = writesOk start vs i s := by
  induction vs generalizing i s with
  | nil => rfl
  | cons v vs ih =>
    exact congrArg (s.writeGives (addrAt start i) v .ok && ·) (ih (i + 1) (s.afterWrite (addrAt start i) v))

theorem afterAdditionalReads_writeEout (as : List SixBit) (k : Nat) (bs : List Byte) (s : State) :
    afterAdditionalReads as (s.writeEout k bs) = (afterAdditionalReads as s).writeEout k bs := by
  induction as generalizing s with
  | nil => rfl
  | cons a as ih => simp only [afterAdditionalReads, State.afterRead_writeEout, ih]

@[simp] theorem afterAdditionalReads_eout (as : List SixBit) (s : State) :
    (afterAdditionalReads as s).eout = s.eout := by
  induction as generalizing s with
  | nil => rfl
  | cons a as ih => simp [afterAdditionalReads, ih]

@[simp] theorem afterAdditionalReads_reg (as : List SixBit) (s : State) :
    (afterAdditionalReads as s).reg = s.reg := by
  induction as generalizing s with
  | nil => rfl
  | cons a as ih => simp [afterAdditionalReads, ih]

@[simp] theorem additionalReadsOk_writeEout (as : List SixBit) (vs : List Value) (k : Nat) (bs : List Byte)
    (s : State) : additionalReadsOk as vs (s.writeEout k bs) = additionalReadsOk as vs s := by
  induction as generalizing vs s with
  | nil => cases vs <;> rfl
  | cons a as ih =>
    cases vs with
    | nil => rfl
    | cons v vs => exact congrArg (s.readOk (additionalAddr a) v && ·) (ih vs (s.afterRead (additionalAddr a)))

/-! ### Blocks of calls answered Ok -/

/-- RDM's loop runs past the reads that are answered Ok, their values stored one after the other (R113). -/
theorem readBlock_of_readsOk {start : Addr} {vs : List Value} {i : Nat} {s : State} (m : Nat)
    (registered : vs ≠ [] → s.reg.provValid = true) (answers : readsOk start vs i s = true) :
    readBlock start (vs.length + m) i s = readBlock start m (i + vs.length)
      ((afterReads start vs.length i s).writeOut (multiLength i) (valueBytes vs)) := by
  induction vs generalizing i s with
  | nil => simp [afterReads, valueBytes, State.writeOut]
  | cons v vs ih =>
    have hv := registered (List.cons_ne_nil v vs)
    obtain ⟨first, others⟩ : s.readOk (addrAt start i) v = true ∧
        readsOk start vs (i + 1) (s.afterRead (addrAt start i)) = true := by
      simpa [readsOk] using answers
    calc readBlock start ((v :: vs).length + m) i s
        = readBlock start (vs.length + m) (i + 1)
            ((s.afterRead (addrAt start i)).writeOut (multiLength i) (be32 v)) := by
          rw [List.length_cons, Nat.succ_add, readBlock, adapterRead_of_readOk hv first]
      _ = readBlock start m (i + 1 + vs.length)
            (((afterReads start vs.length (i + 1) (s.afterRead (addrAt start i))).writeOut (multiLength i)
              (be32 v)).writeOut (multiLength (i + 1)) (valueBytes vs)) := by
          rw [ih (s := (s.afterRead (addrAt start i)).writeOut _ _) (fun _ => hv) (by simpa using others),
            afterReads_writeOut]
      _ = _ := by
          rw [show multiLength (i + 1) = multiLength i + (be32 v).length from rfl, ← State.writeOut_append,
            Nat.add_assoc, Nat.add_comm 1]
          rfl

/-- WRM's loop runs past the writes that are answered Ok (R114). -/
theorem writeBlock_of_writesOk {start : Addr} {vs : List Value} {i : Nat} {s : State} (more : List Value)
    (registered : vs ≠ [] → s.reg.provValid = true) (answers : writesOk start vs i s = true) :
    writeBlock start (vs ++ more) i s = writeBlock start more (i + vs.length) (afterWrites start vs i s) := by
  induction vs generalizing i s with
  | nil => rfl
  | cons v vs ih =>
    have hv := registered (List.cons_ne_nil v vs)
    obtain ⟨first, others⟩ : s.writeGives (addrAt start i) v .ok = true ∧
        writesOk start vs (i + 1) (s.afterWrite (addrAt start i) v) = true := by
      simpa [writesOk] using answers
    rw [List.cons_append, writeBlock, adapterWrite_of_writeGives hv first]
    simp only
    rw [ih (s := s.afterWrite (addrAt start i) v) (fun _ => hv) others, List.length_cons, Nat.add_assoc, Nat.add_comm 1]
    rfl

/-- ENC_SHORT's loop runs past the reads that are answered Ok, one block after the other (R176). -/
theorem emitBlocks_of_readsOk {as : List SixBit} {vs : List Value} {n : Nat} {s : State} (more : List SixBit)
    (registered : as ≠ [] → s.reg.provValid = true) (answers : additionalReadsOk as vs s = true) :
    emitBlocks (as ++ more) n s = emitBlocks more (n + 5 * as.length)
      ((afterAdditionalReads as s).writeEout n (blockBytes as vs)) := by
  induction as generalizing n vs s with
  | nil => simp [afterAdditionalReads, blockBytes, State.writeEout]
  | cons a as ih =>
    cases vs with
    | nil => cases answers
    | cons v vs =>
      have hv := registered (List.cons_ne_nil a as)
      obtain ⟨first, others⟩ : s.readOk (additionalAddr a) v = true ∧
          additionalReadsOk as vs (s.afterRead (additionalAddr a)) = true := by
        simpa [additionalReadsOk] using answers
      calc emitBlocks (a :: as ++ more) n s
          = emitBlocks (as ++ more) (n + 5)
              ((s.afterRead (additionalAddr a)).writeEout n (additionalBlock a v)) := by
            rw [List.cons_append, emitBlocks, adapterRead_of_readOk hv first]
        _ = emitBlocks more (n + 5 + 5 * as.length)
              (((afterAdditionalReads as (s.afterRead (additionalAddr a))).writeEout n
                (additionalBlock a v)).writeEout (n + 5) (blockBytes as vs)) := by
            rw [ih (s := (s.afterRead (additionalAddr a)).writeEout _ _) (fun _ => hv) (by simpa using others),
              afterAdditionalReads_writeEout]
        _ = _ := by
            rw [show n + 5 = n + (additionalBlock a v).length from rfl, ← State.writeEout_append,
              List.length_cons, Nat.mul_succ, Nat.add_comm (5 * as.length), ← Nat.add_assoc]
            rfl

end Sys2Proof.Machine

/-! SUPPORT. Proofs about the answers of ERR, RDM, WRM, RDS, FWU and CTL (R112 to R118, R120). -/

namespace Sys2Proof.Machine

/-! ### RDM -/

/-- RDM's loop after the header: the values that are read follow it in OUT. -/
theorem readBlock_after_header {start : Addr} {header : List Byte} {vs : List Value} {s : State} (m : Nat)
    (len : header.length = 5) (registered : vs ≠ [] → s.reg.provValid = true)
    (answers : readsOk start vs 0 s = true) :
    readBlock start (vs.length + m) 0 (s.writeOut 0 header) = readBlock start m vs.length
      ((afterReads start vs.length 0 s).writeOut 0 (header ++ valueBytes vs)) := by
  rw [readBlock_of_readsOk (s := s.writeOut 0 header) m registered (by simpa using answers), afterReads_writeOut,
    State.writeOut_append, len, Nat.zero_add]
  rfl

/-- A failing read leaves a free word in its slot and ends the loop (R113). -/
theorem readBlock_of_readFails {start : Addr} {n i : Nat} {c : ErrorCode} {s : State}
    (registered : s.reg.provValid = true) (answer : s.readFails (addrAt start i) c = true) :
    readBlock start (n + 1) i s =
      .ok (some c, ((s.afterRead (addrAt start i)).useFree).writeOut (multiLength i) (be32 s.freeValue)) := by
  rw [readBlock, adapterRead_of_readFails registered answer]

theorem readBlock_of_error {start : Addr} {n i : Nat} {s : State} {r : Refusal}
    (h : adapterRead true (addrAt start i) s = .error r) : readBlock start (n + 1) i s = .error r := by
  rw [readBlock, h]

@[simp] theorem valueBytes_length (vs : List Value) : (valueBytes vs).length = 4 * vs.length := by
  induction vs with
  | nil => rfl
  | cons v vs ih =>
    rw [valueBytes, List.flatMap_cons, ← valueBytes, List.length_append, be32_length, ih, List.length_cons]
    omega

theorem exec_rdm_of_readsOk {start : Addr} {count : Half} {vs : List Value} {s : State}
    (ready : s.parseReady 5 = true) (fits : 5 + 4 * count.toNat ≤ s.cfg.cap.val) (len : vs.length = count.toNat)
    (registered : vs ≠ [] → s.reg.provValid = true) (answers : readsOk start vs 0 s = true) :
    exec (.rdm (.valid ⟨start, count⟩)) s = .next
      (((afterReads start count.toNat 0 s).writeOut 0 (0x03 :: (be16 start ++ be16 count) ++ valueBytes vs)).returns
        (.length (5 + 4 * count.toNat))) := by
  have reads : readBlock start count.toNat 0 (s.writeOut 0 (0x03 :: (be16 start ++ be16 count))) =
      .ok (none, (afterReads start count.toNat 0 s).writeOut 0
        (0x03 :: (be16 start ++ be16 count) ++ valueBytes vs)) := by
    rw [← len]
    exact readBlock_after_header 0 rfl registered answers
  rw [exec_rdm_valid ready fits, handlerSteps, reads]
  rfl

theorem exec_rdm_of_readFails {start : Addr} {count : Half} {vs : List Value} {c : ErrorCode} {s : State}
    (ready : s.parseReady 5 = true) (fits : 5 + 4 * count.toNat ≤ s.cfg.cap.val) (short : vs.length < count.toNat)
    (registered : s.reg.provValid = true) (answers : readsOk start vs 0 s = true)
    (failure : (afterReads start vs.length 0 s).readFails (addrAt start vs.length) c = true) :
    exec (.rdm (.valid ⟨start, count⟩)) s = .next
      (raiseError 0x03 c ((((afterReads start vs.length 0 s).afterRead (addrAt start vs.length)).useFree).writeOut 0
        (0x03 :: (be16 start ++ be16 count) ++ valueBytes vs ++ be32 (afterReads start vs.length 0 s).freeValue))) := by
  obtain ⟨k, hk⟩ : ∃ k, count.toNat = vs.length + (k + 1) := ⟨count.toNat - vs.length - 1, by omega⟩
  have slot : multiLength vs.length = 0 + (0x03 :: (be16 start ++ be16 count) ++ valueBytes vs).length := by
    simp only [multiLength, List.length_append, List.length_cons, be16_length, valueBytes_length]
    omega
  have reads : readBlock start count.toNat 0 (s.writeOut 0 (0x03 :: (be16 start ++ be16 count))) =
      .ok (some c, (((afterReads start vs.length 0 s).afterRead (addrAt start vs.length)).useFree).writeOut 0
        (0x03 :: (be16 start ++ be16 count) ++ valueBytes vs ++ be32 (afterReads start vs.length 0 s).freeValue)) := by
    rw [hk, readBlock_after_header (k + 1) rfl (fun _ => registered) answers, State.writeOut_append _ _ _ (be32 _),
      ← slot]
    exact readBlock_of_readFails (by simpa using registered) failure
  rw [exec_rdm_valid ready fits, handlerSteps, reads]
  rfl

/-! ### WRM -/

theorem writeBlock_of_writeGives_error {start : Addr} {v : Value} {more : List Value} {i : Nat} {c : ErrorCode}
    {s : State} (registered : s.reg.provValid = true) (answer : s.writeGives (addrAt start i) v (.error c) = true) :
    writeBlock start (v :: more) i s = .ok (some c, s.afterWrite (addrAt start i) v) := by
  rw [writeBlock, adapterWrite_of_writeGives registered answer]

theorem writeBlock_of_error {start : Addr} {v : Value} {more : List Value} {i : Nat} {s : State} {r : Refusal}
    (h : adapterWrite true (addrAt start i) v s = .error r) : writeBlock start (v :: more) i s = .error r := by
  rw [writeBlock, h]

theorem exec_wrm_of_writesOk {start : Addr} {vs : List Value} {s : State}
    (ready : s.parseReady (5 + 4 * vs.length) = true) (registered : vs ≠ [] → s.reg.provValid = true)
    (answers : writesOk start vs 0 s = true) :
    exec (.wrm (.valid ⟨start, vs⟩)) s = .next
      (((afterWrites start vs 0 s).writeOut 0 (0x10 :: (be16 start ++ be16 (BitVec.ofNat 16 vs.length)))).returns
        (.length 5)) := by
  have writes := writeBlock_of_writesOk (start := start) (i := 0)
    (s := s.writeOut 0 (0x10 :: (be16 start ++ be16 (BitVec.ofNat 16 vs.length)))) [] registered
    (by simpa using answers)
  rw [List.append_nil, afterWrites_writeOut] at writes
  rw [exec_wrm_valid ready, handlerSteps, writes]
  rfl

theorem exec_wrm_of_failing_write {start : Addr} {vs more : List Value} {v : Value} {c : ErrorCode} {s : State}
    (ready : s.parseReady (5 + 4 * (vs ++ v :: more).length) = true) (registered : s.reg.provValid = true)
    (answers : writesOk start vs 0 s = true)
    (failure : (afterWrites start vs 0 s).writeGives (addrAt start vs.length) v (.error c) = true) :
    exec (.wrm (.valid ⟨start, vs ++ v :: more⟩)) s = .next
      (raiseError 0x10 c (((afterWrites start vs 0 s).afterWrite (addrAt start vs.length) v).writeOut 0
        (0x10 :: (be16 start ++ be16 (BitVec.ofNat 16 (vs ++ v :: more).length))))) := by
  have writes := writeBlock_of_writesOk (start := start) (i := 0)
    (s := s.writeOut 0 (0x10 :: (be16 start ++ be16 (BitVec.ofNat 16 (vs ++ v :: more).length)))) (v :: more)
    (fun _ => registered) (by simpa using answers)
  rw [afterWrites_writeOut, Nat.zero_add,
    writeBlock_of_writeGives_error (s := (afterWrites start vs 0 s).writeOut _ _) (by simpa using registered) failure]
    at writes
  rw [exec_wrm_valid ready, handlerSteps, writes]
  rfl

/-! ### RDS -/

theorem exec_rds_of_readOk {a : Addr} {v : Value} {s : State} (ready : s.parseReady 3 = true)
    (registered : s.reg.provValid = true) (answer : s.readOk a v = true) :
    exec (.rds (.valid a)) s = .next
      (((s.afterRead a).writeOut 0 (0x07 :: be16 a ++ be32 v)).returns (.length 7)) := by
  have read : adapterRead true a (s.writeOut 0 (0x07 :: be16 a)) =
      .ok (.ok, v, (s.afterRead a).writeOut 0 (0x07 :: be16 a)) :=
    adapterRead_of_readOk registered answer
  rw [exec_rds_valid ready, handlerSteps, read, State.writeOut_append]
  rfl

theorem exec_rds_of_readFails {a : Addr} {c : ErrorCode} {s : State} (ready : s.parseReady 3 = true)
    (registered : s.reg.provValid = true) (answer : s.readFails a c = true) :
    exec (.rds (.valid a)) s = .next
      (raiseError 0x07 c (((s.afterRead a).useFree).writeOut 0 (0x07 :: be16 a ++ be32 s.freeValue))) := by
  have read : adapterRead true a (s.writeOut 0 (0x07 :: be16 a)) =
      .ok (.error c, s.freeValue, ((s.afterRead a).useFree).writeOut 0 (0x07 :: be16 a)) :=
    adapterRead_of_readFails registered answer
  rw [exec_rds_valid ready, handlerSteps, read, State.writeOut_append]
  rfl

/-! ### FWU and CTL -/

/-- FWU hands the packet over, and the handler's status decides only how it ends (R117). -/
theorem exec_fwu_of_handlerGives {body : List Byte} {st : Status} {s : State}
    (ready : s.parseReady (body.length + 1) = true) (present : s.reg.fwValid = true)
    (answer : handlerGives s.cfg.cap.val st (s.firmwareAnswer (0x29 :: body)) = true) :
    exec (.fwu (.valid body)) s = .next (finish 0x29 (s.afterFirmware (0x29 :: body))
      (endOfStatus (s.firmwareAnswer (0x29 :: body)).written st)) := by
  rw [exec_fwu_valid ready present, callFirmware_of_handlerGives answer]
  rfl

/-- CTL hands the packet over, and the handler's status decides only how it ends (R118). -/
theorem exec_ctl_of_handlerGives {body : List Byte} {st : Status} {s : State}
    (ready : s.parseReady (body.length + 1) = true) (present : s.reg.cmdValid = true)
    (answer : handlerGives s.cfg.cap.val st (s.commandAnswer (0x27 :: body)) = true) :
    exec (.ctl (.valid body)) s = .next (finish 0x27 (s.afterCommand (0x27 :: body))
      (endOfStatus (s.commandAnswer (0x27 :: body)).written st)) := by
  rw [exec_ctl_valid ready present, callCommand_of_handlerGives answer]
  rfl

end Sys2Proof.Machine

namespace Sys2Proof

open Machine

/-- Settles O17: ERR is its end. -/
theorem errWritesTheErrorFrame : Obligations.ErrWritesTheErrorFrame :=
  fun _ _ _ ready => exec_err ready

/-- Settles O19: a structural error ends the handler before its steps. -/
theorem structuralErrorsComeFirst : Obligations.StructuralErrorsComeFirst :=
  fun _ _ _ _ _ packet ready error => exec_of_structuralError packet ready error

/-- Settles O20: the loop runs past all its reads. -/
theorem rdmReadsTheBlockInOrder : Obligations.RdmReadsTheBlockInOrder := by
  intro start count vs s ready fits len registered answers
  rw [exec_rdm_of_readsOk ready fits len registered answers]
  simp only [State.writeOut, State.returns, afterReads_out]

/-- Settles O21: the loop runs past the reads answered Ok and ends at the failing one. -/
theorem rdmStopsAtTheFirstFailingRead : Obligations.RdmStopsAtTheFirstFailingRead := by
  intro start count vs c s ready fits short registered answers failure
  refine ⟨(afterReads start vs.length 0 s).freeValue, ?_⟩
  rw [exec_rdm_of_readFails ready fits short registered answers failure]
  simp only [raiseError, State.writeOut, State.returns, State.useFree, State.afterRead_out, State.afterRead_freeCount,
    afterReads_out, afterReads_freeCount]
  rfl

/-- Settles O22: the loop runs past all its writes. -/
theorem wrmWritesTheBlockInOrder : Obligations.WrmWritesTheBlockInOrder := by
  intro start vs s ready _ registered answers
  rw [exec_wrm_of_writesOk ready registered answers]
  simp only [State.writeOut, State.returns, afterWrites_out]

/-- Settles O23: the loop runs past the writes answered Ok and ends at the failing one. -/
theorem wrmStopsAtTheFirstFailingWrite : Obligations.WrmStopsAtTheFirstFailingWrite := by
  intro start vs more v c s ready _ registered answers failure
  rw [exec_wrm_of_failing_write ready registered answers failure]
  simp only [raiseError, State.writeOut, State.returns, State.afterWrite_out, afterWrites_out]
  rfl

/-- Settles O24: a wrong length is a structural error; else the read's status decides how RDS ends. -/
theorem rdsAnswersTheValue : Obligations.RdsAnswersTheValue :=
  ⟨fun _ _ ready => exec_of_structuralError (tag := 0x07) (c := .invalidLength) rfl ready rfl,
   fun _ _ _ ready registered answer => exec_rds_of_readOk ready registered answer,
   fun _ _ s ready registered answer => ⟨s.freeValue, exec_rds_of_readFails ready registered answer⟩⟩

/-- Settles O26: the wrong length and the absent handler are structural errors; else the handler's status decides how FWU
ends. -/
theorem fwuDelegatesToTheFirmwareHandler : Obligations.FwuDelegatesToTheFirmwareHandler :=
  ⟨fun _ _ ready => exec_of_structuralError (tag := 0x29) (c := .invalidLength) rfl ready rfl,
   fun body s ready absent =>
     exec_of_structuralError (tag := 0x29) (c := .invalidType) rfl ready (by simp [structuralError, absent]),
   fun _ _ _ ready present answer => exec_fwu_of_handlerGives ready present answer,
   fun _ _ _ _ ready present answer => exec_fwu_of_handlerGives ready present answer⟩

/-- Settles O27: the wrong length and the absent handler are structural errors; else the handler's status decides how CTL
ends. -/
theorem ctlDelegatesToTheCommandHandler : Obligations.CtlDelegatesToTheCommandHandler := by
  have ready_of {body : List Byte} {s : State} (six : body.length = 6) (ready : s.parseReady 7 = true) :
      s.parseReady (body.length + 1) = true := by rwa [six]
  exact
    ⟨fun _ _ ready => exec_of_structuralError (tag := 0x27) (c := .invalidLength) rfl ready rfl,
     fun _ _ six ready absent =>
       exec_of_structuralError (tag := 0x27) (c := .invalidType) rfl (ready_of six ready)
         (by simp [structuralError, absent]),
     fun _ _ six ready present answer => exec_ctl_of_handlerGives (ready_of six ready) present answer,
     fun _ _ _ six ready present answer => exec_ctl_of_handlerGives (ready_of six ready) present answer⟩

end Sys2Proof

/-! SUPPORT. Proofs about ADAPT_READ, ADAPT_WRITE and REGISTER (R151, R152, R156). -/

namespace Sys2Proof.Machine

theorem exec_adaptRead_of_ok {bufValid : Bool} {a : Addr} {st : Status} {v : Value} {s t : State}
    (h : adapterRead bufValid a s = .ok (st, v, t)) :
    exec (.adaptRead bufValid a) s = .next (t.returns (.read st v)) := by
  change execAdaptRead bufValid a s = _
  rw [execAdaptRead, h]

theorem exec_adaptRead_of_error {bufValid : Bool} {a : Addr} {r : Refusal} {s : State}
    (h : adapterRead bufValid a s = .error r) : exec (.adaptRead bufValid a) s = .refused r := by
  change execAdaptRead bufValid a s = _
  rw [execAdaptRead, h]

theorem exec_adaptWrite_of_ok {bufValid : Bool} {a : Addr} {v : Value} {st : Status} {s t : State}
    (h : adapterWrite bufValid a v s = .ok (st, t)) :
    exec (.adaptWrite bufValid a v) s = .next (t.returns (.write st)) := by
  change execAdaptWrite bufValid a v s = _
  rw [execAdaptWrite, h]

theorem exec_adaptWrite_of_error {bufValid : Bool} {a : Addr} {v : Value} {r : Refusal} {s : State}
    (h : adapterWrite bufValid a v s = .error r) : exec (.adaptWrite bufValid a v) s = .refused r := by
  change execAdaptWrite bufValid a v s = _
  rw [execAdaptWrite, h]

end Sys2Proof.Machine

namespace Sys2Proof

open Machine

/-- Settles O34: each end is one of the adapter's read. -/
theorem adaptReadCallsTheProviderOnce : Obligations.AdaptReadCallsTheProviderOnce :=
  ⟨fun _ s => ⟨s.freeValue, rfl⟩,
   fun _ _ _ registered answer => exec_adaptRead_of_ok (adapterRead_of_readOk registered answer),
   fun _ _ s registered answer => ⟨s.freeValue, exec_adaptRead_of_ok (adapterRead_of_readFails registered answer)⟩,
   fun _ _ unregistered => exec_adaptRead_of_error (adapterRead_of_unregistered unregistered)⟩

/-- Settles O35: each end is one of the adapter's write. -/
theorem adaptWriteCallsTheProviderOnce : Obligations.AdaptWriteCallsTheProviderOnce :=
  ⟨fun _ _ _ => rfl,
   fun _ _ _ _ registered answer => exec_adaptWrite_of_ok (adapterWrite_of_writeGives registered answer),
   fun _ _ _ unregistered => exec_adaptWrite_of_error (adapterWrite_of_unregistered unregistered)⟩

/-- Settles O36: REGISTER tests the two primitives. -/
theorem registerNeedsBothPrimitives : Obligations.RegisterNeedsBothPrimitives := by
  refine ⟨fun _ _ _ _ _ => rfl, ?_⟩
  rintro r w f c s (rfl | rfl)
  · rfl
  · cases r <;> rfl

end Sys2Proof

/-! SUPPORT. Proofs about the additional-parameter codec in its closed form (R191, R193). -/

namespace Sys2Proof.Machine

/-! ### The fields of a word -/

/-- The shifts are arithmetic, so the low six bits after j of them are field j only while the field lies in the word. -/
theorem lowSix_sshiftRight (packed : Word) {j : Nat} (h : j < 5) :
    (packed.sshiftRight (6 * j)).extractLsb' 0 6 = packedField packed j := by
  apply BitVec.eq_of_getLsbD_eq
  intro k hk
  have inside : 6 * j + k < 32 := by omega
  have bit : k < 32 := by omega
  simp only [packedField, BitVec.getLsbD_extractLsb', BitVec.getLsbD_sshiftRight, Nat.zero_add]
  simp [inside, Nat.not_le.2 bit]

/-- R190's loop from field j on is the closed form from field j on (R191). -/
theorem unpackFields_sshiftRight (packed : Word) {n j : Nat} (h : j + n ≤ 5) :
    unpackFields n (packed.sshiftRight (6 * j)) =
      ((List.range' j n).map (packedField packed)).takeWhile (· ≠ 0) := by
  induction n generalizing j with
  | zero => rfl
  | succ n ih =>
    have low := lowSix_sshiftRight packed (j := j) (by omega)
    rw [List.range'_succ, List.map_cons, List.takeWhile_cons]
    by_cases zero : packedField packed j = 0
    · simp [unpackFields_of_zero (low.trans zero), zero]
    · rw [unpackFields_of_ne_zero (by rwa [low]), low, ← BitVec.sshiftRight_add, ← Nat.mul_succ, ih (by omega)]
      exact (if_pos (decide_eq_true zero)).symm

theorem unpackAddresses_eq (packed : Word) :
    unpackAddresses packed = ((List.range 5).map (packedField packed)).takeWhile (· ≠ 0) := by
  rw [List.range_eq_range', ← unpackFields_sshiftRight packed (Nat.le_refl 5)]
  simp [unpackAddresses]

/-! ### Words made of addresses -/

/-- The word made of these addresses, lowest first, with `high` above them (R193). -/
def packedNumber (l : List SixBit) (high : Nat) : Nat := l.foldr (fun a acc => a.toNat + 64 * acc) high

/-- Field j of a word with this number is a digit of the number in base 64. -/
theorem packedField_ofNat (n : Nat) {j : Nat} (h : j < 5) :
    packedField (BitVec.ofNat 32 n) j = BitVec.ofNat 6 (n / 64 ^ j) := by
  apply BitVec.eq_of_toNat_eq
  simp only [packedField, BitVec.extractLsb'_toNat, BitVec.toNat_ofNat, Nat.shiftRight_eq_div_pow]
  interval_cases j <;> omega

/-- The digits of such a number, up to the first that is 0, are the addresses. -/
theorem takeWhile_digits_packedNumber {l : List SixBit} {high n : Nat} (len : l.length ≤ n) (nonzero : ∀ a ∈ l, a ≠ 0)
    (ends : l.length < n → high % 64 = 0) :
    ((List.range n).map (fun j => BitVec.ofNat 6 (packedNumber l high / 64 ^ j))).takeWhile (· ≠ 0) = l := by
  induction l generalizing n with
  | nil =>
    cases n with
    | zero => rfl
    | succ n =>
      have zero : BitVec.ofNat 6 high = 0 := BitVec.eq_of_toNat_eq (by simpa using ends (by simp))
      simp [List.range_succ_eq_map, packedNumber, zero]
  | cons a l ih =>
    cases n with
    | zero => simp at len
    | succ n =>
      have six := a.isLt
      have first : BitVec.ofNat 6 (packedNumber (a :: l) high / 64 ^ 0) = a := by
        apply BitVec.eq_of_toNat_eq
        simp only [packedNumber, List.foldr_cons, BitVec.toNat_ofNat]
        omega
      have later (j : Nat) : packedNumber (a :: l) high / 64 ^ (j + 1) = packedNumber l high / 64 ^ j := by
        rw [Nat.pow_succ', ← Nat.div_div_eq_div_mul]
        congr 1
        simp only [packedNumber, List.foldr_cons]
        omega
      have rest := ih (n := n) (by simpa using len) (fun b mem => nonzero b (List.mem_cons_of_mem a mem))
        (fun short => ends (by simpa using short))
      rw [List.range_succ_eq_map, List.map_cons, first, List.map_map, List.takeWhile_cons]
      simp only [Function.comp_def, Nat.succ_eq_add_one, later, rest]
      exact if_pos (decide_eq_true (nonzero a List.mem_cons_self))

theorem unpackAddresses_packedNumber {l : List SixBit} {high : Nat} (len : l.length ≤ 5) (nonzero : ∀ a ∈ l, a ≠ 0)
    (ends : l.length < 5 → high % 64 = 0) : unpackAddresses (BitVec.ofNat 32 (packedNumber l high)) = l := by
  have fields : (List.range 5).map (packedField (BitVec.ofNat 32 (packedNumber l high))) =
      (List.range 5).map (fun j => BitVec.ofNat 6 (packedNumber l high / 64 ^ j)) :=
    List.map_congr_left fun j mem => packedField_ofNat _ (List.mem_range.1 mem)
  rw [unpackAddresses_eq, fields, takeWhile_digits_packedNumber len nonzero ends]

end Sys2Proof.Machine

namespace Sys2Proof

open Machine

/-- Settles O43: the loop's closed form. -/
theorem apcDecodeListsTheFields : Obligations.ApcDecodeListsTheFields := by
  intro packed s
  rw [← unpackAddresses_eq]
  exact exec_apcDecode packed s

/-- Settles O45: the fields of the word are the digits of its number. -/
theorem packedWordDecodesToItsAddresses : Obligations.PackedWordDecodesToItsAddresses := by
  intro l high s len nonzero ends
  have addresses := unpackAddresses_packedNumber len nonzero ends
  rw [exec_apcDecode]
  exact congrArg (fun as => Host.Outcome.next { s with result := Result.addresses as }) addresses

end Sys2Proof

/-! SUPPORT. Proofs about ENC_START and ENC_SHORT, and what every encoder leaves as it was (R171, R176, R178). -/

namespace Sys2Proof.Machine

/-! ### ENC_START -/

theorem exec_encStart (resetCount : Word) (s : State) :
    exec (.encStart resetCount) s = emit (eventMessage 0 (startPayload resetCount)) s := rfl

/-- The clamp and the truncation on the integer (R171). -/
theorem startPayload_eq (resetCount : Word) : startPayload resetCount = BitVec.ofInt 16 (max resetCount.toInt 0) := by
  unfold startPayload
  split
  next negative => rw [max_eq_right (by omega)]; rfl
  next nonnegative =>
    have number : resetCount.toInt = resetCount.toNat := by
      rw [BitVec.toInt_eq_toNat_cond] at nonnegative ⊢
      omega
    rw [max_eq_left (by omega), number, BitVec.ofInt_natCast]
    rfl

/-! ### ENC_SHORT -/

theorem exec_encShort_of_short_eout {payload : Word} {number : Byte} {schedule : Half} {packed : Word} {s : State}
    (room : s.eout.room.holds 32 = false) :
    exec (.encShort payload number schedule packed) s = .refused .eoutTooSmall := by
  change execEncShort payload number schedule packed s = _
  simp [execEncShort, room]

theorem exec_encShort_of_large_number {payload : Word} {number : Byte} {schedule : Half} {packed : Word} {s : State}
    (room : s.eout.room.holds 32 = true) (large : 63 < number.toNat) :
    exec (.encShort payload number schedule packed) s = .next (s.returns (.length 0)) := by
  change execEncShort payload number schedule packed s = _
  simp [execEncShort, room, large]

theorem exec_encShort_of_error {payload : Word} {number : Byte} {schedule : Half} {packed : Word} {r : Refusal}
    {s : State} (room : s.eout.room.holds 32 = true) (small : number.toNat ≤ 63)
    (blocks : emitBlocks (unpackAddresses packed) 7 (s.writeEout 0 (shortCore payload number schedule)) = .error r) :
    exec (.encShort payload number schedule packed) s = .refused r := by
  change execEncShort payload number schedule packed s = _
  simp [execEncShort, room, Nat.not_lt.2 small, blocks]

theorem exec_encShort_of_ok {payload : Word} {number : Byte} {schedule : Half} {packed : Word} {n : Nat} {s t : State}
    (room : s.eout.room.holds 32 = true) (small : number.toNat ≤ 63)
    (blocks : emitBlocks (unpackAddresses packed) 7 (s.writeEout 0 (shortCore payload number schedule)) = .ok (n, t)) :
    exec (.encShort payload number schedule packed) s = .next (t.returns (.length n)) := by
  change execEncShort payload number schedule packed s = _
  simp [execEncShort, room, Nat.not_lt.2 small, blocks]

/-- An ENC_SHORT that ends rejected its parameter number or has appended its blocks. -/
theorem exec_encShort_next {payload : Word} {number : Byte} {schedule : Half} {packed : Word} {s t : State}
    (h : exec (.encShort payload number schedule packed) s = .next t) :
    t = s.returns (.length 0) ∨ ∃ n u,
      emitBlocks (unpackAddresses packed) 7 (s.writeEout 0 (shortCore payload number schedule)) = .ok (n, u) ∧
      t = u.returns (.length n) := by
  cases room : s.eout.room.holds 32 with
  | false => rw [exec_encShort_of_short_eout room] at h; cases h
  | true =>
    by_cases small : number.toNat ≤ 63
    · cases blocks : emitBlocks (unpackAddresses packed) 7 (s.writeEout 0 (shortCore payload number schedule)) with
      | error r => rw [exec_encShort_of_error room small blocks] at h; cases h
      | ok p => rw [exec_encShort_of_ok room small blocks] at h; cases h; exact .inr ⟨p.1, p.2, rfl, rfl⟩
    · rw [exec_encShort_of_large_number room (Nat.not_le.1 small)] at h
      cases h
      exact .inl rfl

/-- The blocks after the core: one for each address, in order. -/
theorem emitBlocks_after_core {core : List Byte} {as : List SixBit} {vs : List Value} {s : State} (more : List SixBit)
    (len : core.length = 7) (registered : as ≠ [] → s.reg.provValid = true)
    (answers : additionalReadsOk as vs s = true) :
    emitBlocks (as ++ more) 7 (s.writeEout 0 core) = emitBlocks more (7 + 5 * as.length)
      ((afterAdditionalReads as s).writeEout 0 (core ++ blockBytes as vs)) := by
  rw [emitBlocks_of_readsOk (s := s.writeEout 0 core) more registered (by simpa using answers),
    afterAdditionalReads_writeEout, State.writeEout_append, len]

theorem exec_encShort_of_readsOk {payload : Word} {number : Byte} {schedule : Half} {packed : Word} {vs : List Value}
    {s : State} (room : s.eout.room.holds 32 = true) (small : number.toNat ≤ 63)
    (registered : unpackAddresses packed ≠ [] → s.reg.provValid = true)
    (answers : additionalReadsOk (unpackAddresses packed) vs s = true) :
    exec (.encShort payload number schedule packed) s = .next
      (((afterAdditionalReads (unpackAddresses packed) s).writeEout 0
        (shortCore payload number schedule ++ blockBytes (unpackAddresses packed) vs)).returns
          (.length (7 + 5 * (unpackAddresses packed).length))) := by
  have blocks := emitBlocks_after_core [] (shortCore_length payload number schedule) registered answers
  rw [List.append_nil] at blocks
  exact exec_encShort_of_ok room small blocks

/-! ### What an encoder leaves as it was -/

theorem emit_effect {message : List Byte} {s t : State} (h : emit message s = .next t) :
    MessageEffect message.length s t ∧ t.readAnswers = s.readAnswers ∧ t.history = s.history := by
  obtain ⟨-, rfl⟩ := emit_next h
  exact ⟨(writeEout_effect s 0 message (by omega)).trans (returns_message _ _ _), rfl, rfl⟩

theorem exec_encShort_effect {payload : Word} {number : Byte} {schedule : Half} {packed : Word} {s t : State}
    (h : exec (.encShort payload number schedule packed) s = .next t) :
    MessageEffect (7 + 5 * (unpackAddresses packed).length) s t := by
  rcases exec_encShort_next h with rfl | ⟨n, u, blocks, rfl⟩
  · exact returns_message _ _ _
  · obtain ⟨rfl, effect⟩ := emitBlocks_effect blocks
    have core := writeEout_effect s 0 (shortCore payload number schedule)
      (hi := 7 + 5 * (unpackAddresses packed).length) (by simp only [shortCore_length]; omega)
    exact (core.trans effect).trans (returns_message _ _ _)

end Sys2Proof.Machine

namespace Sys2Proof

open Machine

/-- Settles O38: ENC_START emits the Event message with id 0. -/
theorem encStartClampsThenTruncates : Obligations.EncStartClampsThenTruncates := by
  intro resetCount s room
  rw [exec_encStart, emit_of_room (eventMessage_length _ _) room, startPayload_eq]
  rfl

/-- Settles O40: the loop runs past all the reads. -/
theorem encShortAppendsTheBlocksInOrder : Obligations.EncShortAppendsTheBlocksInOrder := by
  rintro payload number schedule packed as vs s room small rfl registered answers
  rw [← unpackAddresses_eq] at registered answers ⊢
  rw [exec_encShort_of_readsOk room small registered answers]
  simp only [State.writeEout, State.returns, afterAdditionalReads_eout]
  rfl

/-- Settles O41: the number is tested before any write. -/
theorem encShortRejectsLargeNumbers : Obligations.EncShortRejectsLargeNumbers :=
  fun _ _ _ _ _ room large => exec_encShort_of_large_number room large

/-- Settles O42: each encoder's effect is that of its message. -/
theorem encodersChangeOnlyTheirMessage : Obligations.EncodersChangeOnlyTheirMessage := by
  intro i n s t encoder h
  have frame : MessageEffect n s t ∧
      ((∃ p m d k, i = .encShort p m d k) ∨ (t.readAnswers = s.readAnswers ∧ t.history = s.history)) := by
    rcases encoder with ⟨e, p, rfl, rfl⟩ | ⟨r, rfl, rfl⟩ | ⟨p, v, d, rfl, rfl⟩ | ⟨p, m, d, k, rfl, rfl⟩
    · exact (emit_effect h).imp_right .inr
    · exact (emit_effect h).imp_right .inr
    · exact (emit_effect h).imp_right .inr
    · exact ⟨exec_encShort_effect h, .inl ⟨p, m, d, k, rfl⟩⟩
  obtain ⟨effect, silent⟩ := frame
  exact ⟨effect.reg, effect.sch, effect.psch, effect.cfg, effect.input, effect.out, effect.room, effect.inOutOverlap,
    effect.pending, effect.writeAnswers, effect.firmwareAnswers, effect.commandAnswers, effect.freeCount,
    effect.outside, silent⟩

/-- Settles O54: each encoder tests its minimum first. -/
theorem shortEoutIsRefused : Obligations.ShortEoutIsRefused := by
  have refuse {message : List Byte} {s : State} (room : s.eout.room.holds message.length = false) :
      emit message s = .refused .eoutTooSmall := if_pos room
  exact fun s =>
    ⟨fun e p room => refuse (message := eventMessage e p) room,
     fun r room => refuse (message := eventMessage 0 (startPayload r)) room,
     fun p v d room => refuse (message := pairMessage s.cfg.pairEventTag.val p v d) room,
     fun _ _ _ _ room => exec_encShort_of_short_eout room⟩

end Sys2Proof

/-! SUPPORT. Proofs about single polls of the schedulers (R200, R203, R210, R215, R218). -/

namespace Sys2Proof.Machine

theorem calendarTime_eq_true {hour minute second : Byte} :
    calendarTime hour minute second = true ↔ hour.toNat ≤ 23 ∧ minute.toNat ≤ 59 ∧ second.toNat ≤ 59 := by
  simp [calendarTime, and_assoc]

theorem calendarTime_eq_false {hour minute second : Byte} :
    calendarTime hour minute second = false ↔ 23 < hour.toNat ∨ 59 < minute.toNat ∨ 59 < second.toNat := by
  rw [← Bool.not_eq_true, calendarTime_eq_true]
  omega

/-! ### SCH_POLL -/

theorem exec_schPoll_of_time {hour minute : Byte} {schedule : Half} {s : State}
    (outside : calendarTime hour minute 0 = false) : exec (.schPoll hour minute schedule) s = .refused .timeOutOfRange :=
  if_pos outside

theorem exec_schPoll_of_schedule {hour minute : Byte} {schedule : Half} {s : State}
    (time : calendarTime hour minute 0 = true) (outside : schedule.toNat = 0 ∨ 1440 < schedule.toNat) :
    exec (.schPoll hour minute schedule) s = .refused .schScheduleOutOfRange := by
  change execSchPoll hour minute schedule s = _
  rw [execSchPoll, if_neg (by rw [time]; simp), if_pos outside]

theorem exec_schPoll_of_domain {hour minute : Byte} {schedule : Half} {s : State}
    (time : calendarTime hour minute 0 = true) (inside : ¬ (schedule.toNat = 0 ∨ 1440 < schedule.toNat)) :
    exec (.schPoll hour minute schedule) s = .next
      ({ s with sch := (schAdvance hour minute schedule s.sch).2 }.returns
        (.fire (schAdvance hour minute schedule s.sch).1)) := by
  change execSchPoll hour minute schedule s = _
  rw [execSchPoll, if_neg (by rw [time]; simp), if_neg inside]

/-- A poll of SCH that ends has advanced the latch. -/
theorem exec_schPoll_next {hour minute : Byte} {schedule : Half} {s t : State}
    (h : exec (.schPoll hour minute schedule) s = .next t) :
    t = { s with sch := (schAdvance hour minute schedule s.sch).2 }.returns
      (.fire (schAdvance hour minute schedule s.sch).1) := by
  cases time : calendarTime hour minute 0 with
  | false => rw [exec_schPoll_of_time time] at h; cases h
  | true =>
    by_cases outside : schedule.toNat = 0 ∨ 1440 < schedule.toNat
    · rw [exec_schPoll_of_schedule time outside] at h
      cases h
    · rw [exec_schPoll_of_domain time outside] at h
      cases h
      rfl

/-- A poll on operands in their ranges, by the minute and the period as numbers (R200). -/
theorem exec_schPoll {hour minute : Byte} {schedule : Half} {s : State} (hh : hour.toNat ≤ 23)
    (hm : minute.toNat ≤ 59) (low : 1 ≤ schedule.toNat) (high : schedule.toNat ≤ 1440) :
    exec (.schPoll hour minute schedule) s = .next
      { s with
        sch := { latch := decide ((60 * hour.toNat + minute.toNat) % (1440 / schedule.toNat) = 0) }
        result := .fire
          (decide ((60 * hour.toNat + minute.toNat) % (1440 / schedule.toNat) = 0) && !s.sch.latch) } := by
  rw [exec_schPoll_of_domain (calendarTime_eq_true.2 ⟨hh, hm, by simp⟩) (by omega), schAdvance_eq]
  rfl

/-! ### PSCH_POLL -/

theorem exec_pschPoll_of_time {hour minute second : Byte} {schedule : Half} {s : State}
    (outside : calendarTime hour minute second = false) :
    exec (.pschPoll hour minute second schedule) s = .refused .timeOutOfRange :=
  if_pos outside

theorem exec_pschPoll_of_schedule {hour minute second : Byte} {schedule : Half} {s : State}
    (time : calendarTime hour minute second = true) (zero : schedule.toNat = 0) :
    exec (.pschPoll hour minute second schedule) s = .refused .pschScheduleZero := by
  change execPschPoll hour minute second schedule s = _
  simp [execPschPoll, time, zero]

theorem exec_pschPoll_of_domain {hour minute second : Byte} {schedule : Half} {s : State}
    (time : calendarTime hour minute second = true) (nonzero : schedule.toNat ≠ 0) :
    exec (.pschPoll hour minute second schedule) s = .next
      ({ s with psch := (pschAdvance hour minute second schedule s.psch).2 }.returns
        (.fire (pschAdvance hour minute second schedule s.psch).1)) := by
  change execPschPoll hour minute second schedule s = _
  simp [execPschPoll, time, nonzero]

/-- A poll of PSCH that ends was made at a calendar time and has advanced its three values. -/
theorem exec_pschPoll_next {hour minute second : Byte} {schedule : Half} {s t : State}
    (h : exec (.pschPoll hour minute second schedule) s = .next t) :
    calendarTime hour minute second = true ∧
      t = { s with psch := (pschAdvance hour minute second schedule s.psch).2 }.returns
        (.fire (pschAdvance hour minute second schedule s.psch).1) := by
  cases time : calendarTime hour minute second with
  | false => rw [exec_pschPoll_of_time time] at h; cases h
  | true =>
    by_cases zero : schedule.toNat = 0
    · rw [exec_pschPoll_of_schedule time zero] at h
      cases h
    · rw [exec_pschPoll_of_domain time zero] at h
      cases h
      exact ⟨rfl, rfl⟩

theorem exec_pschPoll_of_advance {hour minute second : Byte} {schedule : Half} {s : State} {fire : Bool} {p : Psch}
    (time : calendarTime hour minute second = true) (nonzero : schedule.toNat ≠ 0)
    (advance : pschFire (secondOfDay hour minute second) (secondPeriod schedule) (pschObserveHour hour s.psch) =
      (fire, p)) :
    exec (.pschPoll hour minute second schedule) s = .next { s with psch := p, result := .fire fire } := by
  rw [exec_pschPoll_of_domain time nonzero, pschAdvance, advance]
  rfl

theorem pschObserveHour_eq (hour : Byte) (p : Psch) :
    pschObserveHour hour p =
      { next := p.next, wait := p.wait && decide (p.lastHour.toNat ≤ hour.toNat), lastHour := hour } := by
  rw [← pschObserveHour_wait]
  rfl

/-- NEXT advances by at most a day and wraps when it reaches one (R212). -/
theorem pschFire_next_lt {t period : Nat} {p : Psch} (le : period ≤ 86400) (lt : p.next.toNat < 86400) :
    (pschFire t period p).2.next.toNat < 86400 := by
  rcases pschFire_cases t period p with ⟨-, e⟩ | ⟨-, -, within, e⟩ | ⟨-, -, wraps, e⟩ <;> rw [e]
  · exact lt
  · simp only [BitVec.toNat_ofNat]
    omega
  · simp only [BitVec.toNat_ofNat]
    omega

theorem pschAdvance_next_lt {hour minute second : Byte} {schedule : Half} {p : Psch} (lt : p.next.toNat < 86400) :
    (pschAdvance hour minute second schedule p).2.next.toNat < 86400 :=
  pschFire_next_lt (Nat.div_le_self _ _) lt

@[simp] theorem pschAdvance_lastHour (hour minute second : Byte) (schedule : Half) (p : Psch) :
    (pschAdvance hour minute second schedule p).2.lastHour = hour :=
  pschFire_lastHour _ _ _

end Sys2Proof.Machine

namespace Sys2Proof

open Machine

/-- Settles O46: one poll of SCH, as numbers. -/
theorem schPollFiresOncePerDivisibleMinute : Obligations.SchPollFiresOncePerDivisibleMinute :=
  fun _ _ _ _ hh hm low high => exec_schPoll hh hm low high

/-- Settles O47: the period is one minute, which divides every minute. -/
theorem schPeriodOneFiresOnce : Obligations.SchPeriodOneFiresOnce := by
  intro hour minute schedule s hh hm low high
  have period : 1440 / schedule.toNat = 1 := Nat.div_eq_of_lt_le (by omega) (by omega)
  rw [exec_schPoll hh hm (by omega) high, period]
  simp [Nat.mod_one]

/-- Settles O49: the three ends of the fire test after the hour is observed. -/
theorem pschPollFiresWhenNextIsReached : Obligations.PschPollFiresWhenNextIsReached := by
  rintro hour minute second schedule s hh hm hs low now period next waiting rfl rfl rfl rfl
  have poll {fire : Bool} {p : Psch} := exec_pschPoll_of_advance (s := s) (fire := fire) (p := p)
    (calendarTime_eq_true.2 ⟨hh, hm, hs⟩) (Nat.ne_of_gt low)
  simp only [pschObserveHour_eq, secondOfDay, secondPeriod] at poll
  refine ⟨fun reached clear wraps => poll ?_, fun reached clear within => poll ?_, fun silent => poll ?_⟩
  · simp [pschFire, reached, clear, wraps]
  · simp [pschFire, reached, clear, Nat.not_le.2 within]
  · refine if_neg ?_
    rintro ⟨reached, clear⟩
    rcases silent with early | waits
    · exact absurd reached (Nat.not_le.2 early)
    · rw [waits] at clear
      cases clear

/-- Settles O50: a poll that ends has advanced NEXT by at most a day. -/
theorem pschNextStaysBelowOneDay : Obligations.PschNextStaysBelowOneDay := by
  intro hour minute second schedule s t lt h
  obtain ⟨-, rfl⟩ := exec_pschPoll_next h
  exact pschAdvance_next_lt lt

/-- Settles O58: a poll tests its time first and then its schedule. -/
theorem pollsOutsideTheirDomainAreRefused : Obligations.PollsOutsideTheirDomainAreRefused :=
  fun _ _ _ _ _ =>
    ⟨fun outside => exec_schPoll_of_time (calendarTime_eq_false.2 (outside.imp_right .inl)),
     fun outside => exec_pschPoll_of_time (calendarTime_eq_false.2 outside),
     fun hh hm outside => exec_schPoll_of_schedule (calendarTime_eq_true.2 ⟨hh, hm, by simp⟩) outside,
     fun hh hm hs zero => exec_pschPoll_of_schedule (calendarTime_eq_true.2 ⟨hh, hm, hs⟩) zero⟩

end Sys2Proof

/-! SUPPORT. Proofs about a day of polls (R202, R214): an invariant of the scheduler's state after each part of the day. -/

namespace Sys2Proof.Machine

/-! ### Sequences of polls -/

theorem pollAll_single {i : Instr} {s t : State} {f : Bool} (h : exec i s = .next t) (fire : t.result = .fire f) :
    pollAll [i] s = some ([f], t) := by
  simp [pollAll, h, fire]

theorem pollAll_append {is js : List Instr} {s t : State} {fs : List Bool} (h : pollAll is s = some (fs, t)) :
    pollAll (is ++ js) s = (pollAll js t).map (fun p => (fs ++ p.1, p.2)) := by
  induction is generalizing s fs with
  | nil =>
    cases h
    simp
  | cons i is ih =>
    rw [pollAll] at h
    split at h
    next u step =>
      split at h
      next f gs v fire rest =>
        cases h
        rw [List.cons_append, pollAll, step]
        simp only [fire, ih rest]
        cases pollAll js t <;> rfl
      next => cases h
    next => cases h

theorem pollAll_append_of {is js : List Instr} {s t u : State} {fs gs : List Bool} (h : pollAll is s = some (fs, t))
    (g : pollAll js t = some (gs, u)) : pollAll (is ++ js) s = some (fs ++ gs, u) := by
  rw [pollAll_append h, g]
  rfl

/-! ### Multiples of the period -/

theorem count_multiples (period n : Nat) :
    Nat.count (fun k => k % period = 0) (n + 1) = n / period + 1 := by
  induction n with
  | zero => simp [Nat.count_succ]
  | succ n ih =>
    rw [Nat.count_succ, ih, Nat.succ_div]
    simp only [Nat.dvd_iff_mod_eq_zero]
    omega

theorem count_map_decide (p : Nat → Prop) [DecidablePred p] (n : Nat) :
    ((List.range n).map (fun k => decide (p k))).count true = Nat.count p n := by
  simp [List.count, List.countP_map, Nat.count, Function.comp_def]

/-- A day of `day` units has as many multiples of its period as the schedule that divides it says. -/
theorem multiples_of_dividing_schedule {day schedule : Nat} (pos : 0 < day) (dvd : schedule ∣ day) :
    (day - 1) / (day / schedule) + 1 = schedule := by
  obtain ⟨period, rfl⟩ := dvd
  have schedule_pos : 0 < schedule := Nat.pos_of_mul_pos_right pos
  have period_pos : 0 < period := Nat.pos_of_mul_pos_left pos
  rw [Nat.mul_div_cancel_left period schedule_pos]
  have last : (schedule * period - 1) / period = schedule - 1 := by
    refine Nat.div_eq_of_lt_le ?_ ?_
    · rw [Nat.sub_one_mul]
      omega
    · rw [Nat.sub_add_cancel schedule_pos]
      omega
  omega

/-! ### SCH, twice a minute -/

/-- Two polls in one minute: only the first can fire (R201). -/
theorem pollAll_schMinute {schedule : Half} {n : Nat} (s : State) (hn : n < 1440) (low : 1 ≤ schedule.toNat)
    (high : schedule.toNat ≤ 1440) :
    ∃ t, pollAll [schPollAt schedule n, schPollAt schedule n] s =
        some ([decide (n % (1440 / schedule.toNat) = 0) && !s.sch.latch, false], t) ∧
      t.sch.latch = decide (n % (1440 / schedule.toNat) = 0) := by
  have poll (u : State) : exec (schPollAt schedule n) u = .next
      { u with
        sch := { latch := decide (n % (1440 / schedule.toNat) = 0) }
        result := .fire (decide (n % (1440 / schedule.toNat) = 0) && !u.sch.latch) } := by
    have hour : (BitVec.ofNat 8 (n / 60)).toNat = n / 60 := by simp only [BitVec.toNat_ofNat]; omega
    have minute : (BitVec.ofNat 8 (n % 60)).toNat = n % 60 := by simp only [BitVec.toNat_ofNat]; omega
    have time : 60 * (n / 60) + n % 60 = n := Nat.div_add_mod n 60
    have numbers := exec_schPoll (hour := BitVec.ofNat 8 (n / 60)) (minute := BitVec.ofNat 8 (n % 60)) (s := u)
      (by omega) (by omega) low high
    rwa [hour, minute, time] at numbers
  refine ⟨_, pollAll_append_of (pollAll_single (poll s) rfl) (pollAll_single (poll _) ?_), rfl⟩
  simp

/-- The minutes before k, the latch clear at first: each multiple of the period fires once, since no two minutes in a row are
multiples of it. -/
theorem pollAll_schDay_before {schedule : Half} {s : State} (clear : s.sch.latch = false) (low : 1 ≤ schedule.toNat)
    (high : schedule.toNat ≤ 720) {k : Nat} (hk : k ≤ 1440) :
    ∃ fires t,
      pollAll ((List.range k).flatMap (fun n => [schPollAt schedule n, schPollAt schedule n])) s = some (fires, t) ∧
      fires.count true = Nat.count (fun n => n % (1440 / schedule.toNat) = 0) k ∧
      t.sch.latch = decide (0 < k ∧ (k - 1) % (1440 / schedule.toNat) = 0) := by
  induction k with
  | zero => exact ⟨[], s, rfl, rfl, by simp [clear]⟩
  | succ k ih =>
    obtain ⟨fires, t, before, count, latch⟩ := ih (by omega)
    obtain ⟨u, minute, latched⟩ := pollAll_schMinute t (n := k) (by omega) low (by omega)
    have two : 2 ≤ 1440 / schedule.toNat := (Nat.le_div_iff_mul_le low).2 (by omega)
    have apart : k % (1440 / schedule.toNat) = 0 → t.sch.latch = false := by
      intro multiple
      rw [latch, decide_eq_false_iff_not]
      rintro ⟨pos, previous⟩
      have one := (Nat.dvd_sub_iff_right (by omega) (Nat.dvd_of_mod_eq_zero multiple)).1
        (show 1440 / schedule.toNat ∣ k - 1 from Nat.dvd_of_mod_eq_zero previous)
      exact absurd (Nat.le_of_dvd Nat.one_pos one) (by omega)
    refine ⟨fires ++ [decide (k % (1440 / schedule.toNat) = 0) && !t.sch.latch, false], u, ?_, ?_, by simpa using latched⟩
    · rw [List.range_succ, List.flatMap_append]
      exact pollAll_append_of before (by simpa using minute)
    · rw [List.count_append, count, Nat.count_succ]
      by_cases multiple : k % (1440 / schedule.toNat) = 0
      · simp [multiple, apart multiple]
      · simp [multiple]

/-- The day's last minute, 1439, is prime, so no period from 2 to 1440 divides it. -/
theorem last_minute_not_multiple {schedule : Nat} (low : 1 ≤ schedule) (high : schedule ≤ 720) :
    1439 % (1440 / schedule) ≠ 0 := by
  intro multiple
  have prime : Nat.Prime 1439 := by norm_num
  have two : 2 ≤ 1440 / schedule := (Nat.le_div_iff_mul_le low).2 (by omega)
  rcases prime.eq_one_or_self_of_dvd _ (Nat.dvd_of_mod_eq_zero multiple) with one | self
  · omega
  · have bound : 1439 * schedule ≤ 1440 := self ▸ Nat.div_mul_le_self 1440 schedule
    obtain rfl : schedule = 1 := by omega
    omega

/-! ### PSCH, once a second -/

/-- PSCH's state once the hour is observed, when its next fire of the day is due in second m: from 86400 on, on the next day,
which WAIT says (R211). -/
def pschDue (m : Nat) (hour : Byte) : Psch :=
  if m < 86400 then { next := BitVec.ofNat 32 m, wait := false, lastHour := hour }
  else { next := BitVec.ofNat 32 (m - 86400), wait := true, lastHour := hour }

theorem pschDue_of_lt {m : Nat} (hour : Byte) (h : m < 86400) :
    pschDue m hour = { next := BitVec.ofNat 32 m, wait := false, lastHour := hour } := if_pos h

theorem pschDue_of_le {m : Nat} (hour : Byte) (h : 86400 ≤ m) :
    pschDue m hour = { next := BitVec.ofNat 32 (m - 86400), wait := true, lastHour := hour } :=
  if_neg (Nat.not_lt.2 h)

/-- Within a day the hours do not fall, so WAIT is kept. -/
theorem pschObserveHour_pschDue {hour hour' : Byte} (m : Nat) (h : hour.toNat ≤ hour'.toNat) :
    pschObserveHour hour' (pschDue m hour) = pschDue m hour' := by
  by_cases lt : m < 86400
  · simp [pschDue_of_lt _ lt, pschObserveHour_eq]
  · simp [pschDue_of_le _ (Nat.not_lt.1 lt), pschObserveHour_eq, h]

/-- A poll fires when the second that is due has come, and the next one is a period later. -/
theorem pschFire_pschDue {t m period : Nat} (hour : Byte) (ht : t < 86400) :
    pschFire t period (pschDue m hour) =
      (decide (m ≤ t), pschDue (if m ≤ t then m + period else m) hour) := by
  by_cases reached : m ≤ t
  · have number : (BitVec.ofNat 32 m).toNat = m := by simp only [BitVec.toNat_ofNat]; omega
    by_cases within : m + period < 86400
    · simp [pschFire, pschDue_of_lt hour (show m < 86400 by omega), number, reached, Nat.not_le.2 within,
        pschDue_of_lt hour within]
    · simp [pschFire, pschDue_of_lt hour (show m < 86400 by omega), number, reached, Nat.not_lt.1 within,
        pschDue_of_le hour (Nat.not_lt.1 within)]
  · by_cases lt : m < 86400
    · have number : (BitVec.ofNat 32 m).toNat = m := by simp only [BitVec.toNat_ofNat]; omega
      simp [pschFire, pschDue_of_lt hour lt, number, reached]
    · simp [pschFire, pschDue_of_le hour (Nat.not_lt.1 lt), reached]

/-- m is the least multiple of the period from n on. -/
structure NextMultiple (period n m : Nat) : Prop where
  multiple : period ∣ m
  reached : n ≤ m
  least : m < n + period

theorem NextMultiple.zero {period : Nat} (pos : 0 < period) : NextMultiple period 0 0 :=
  ⟨Nat.dvd_zero period, Nat.le_refl 0, by omega⟩

theorem NextMultiple.eq_of_dvd {period n m : Nat} (h : NextMultiple period n m) (dvd : period ∣ n) : m = n := by
  have reached := h.reached
  have least := h.least
  have difference : m - n = 0 := Nat.eq_zero_of_dvd_of_lt (Nat.dvd_sub h.multiple dvd) (by omega)
  omega

theorem NextMultiple.le_iff {period n m : Nat} (h : NextMultiple period n m) : m ≤ n ↔ n % period = 0 := by
  constructor
  · intro le
    obtain rfl : m = n := Nat.le_antisymm le h.reached
    exact Nat.mod_eq_zero_of_dvd h.multiple
  · intro multiple
    exact (h.eq_of_dvd (Nat.dvd_of_mod_eq_zero multiple)).le

theorem NextMultiple.succ {period n m : Nat} (h : NextMultiple period n m) :
    NextMultiple period (n + 1) (if m ≤ n then m + period else m) := by
  have := h.reached
  have := h.least
  split
  · exact ⟨(Nat.dvd_add_self_right).2 h.multiple, by omega, by omega⟩
  · exact ⟨h.multiple, by omega, by omega⟩

/-- One poll in second n, which fires exactly when n is a multiple of the period. -/
theorem pollAll_pschSecond {schedule : Half} {n m : Nat} {s : State} (hn : n < 86400) (low : 1 ≤ schedule.toNat)
    (next : NextMultiple (86400 / schedule.toNat) n m)
    (observed : pschObserveHour (BitVec.ofNat 8 (n / 3600)) s.psch = pschDue m (BitVec.ofNat 8 (n / 3600))) :
    ∃ t m', pollAll [pschPollAt schedule n] s = some ([decide (n % (86400 / schedule.toNat) = 0)], t) ∧
      NextMultiple (86400 / schedule.toNat) (n + 1) m' ∧ t.psch = pschDue m' (BitVec.ofNat 8 (n / 3600)) := by
  have pos : 0 < 86400 / schedule.toNat := Nat.div_pos (by have := schedule.isLt; omega) low
  have hour : (BitVec.ofNat 8 (n / 3600)).toNat = n / 3600 := by simp only [BitVec.toNat_ofNat]; omega
  have minute : (BitVec.ofNat 8 (n / 60 % 60)).toNat = n / 60 % 60 := by simp only [BitVec.toNat_ofNat]; omega
  have second : (BitVec.ofNat 8 (n % 60)).toNat = n % 60 := by simp only [BitVec.toNat_ofNat]; omega
  have time : secondOfDay (BitVec.ofNat 8 (n / 3600)) (BitVec.ofNat 8 (n / 60 % 60)) (BitVec.ofNat 8 (n % 60)) = n := by
    rw [secondOfDay, hour, minute, second]
    omega
  have advance := pschFire_pschDue (t := n) (m := m) (period := secondPeriod schedule) (BitVec.ofNat 8 (n / 3600)) hn
  rw [← observed] at advance
  nth_rw 1 [← time] at advance
  have calendar : calendarTime (BitVec.ofNat 8 (n / 3600)) (BitVec.ofNat 8 (n / 60 % 60)) (BitVec.ofNat 8 (n % 60)) =
      true := calendarTime_eq_true.2 (by rw [hour, minute, second]; omega)
  have poll := exec_pschPoll_of_advance calendar (Nat.ne_of_gt low) advance
  have fire : decide (m ≤ n) = decide (n % (86400 / schedule.toNat) = 0) := decide_eq_decide.2 next.le_iff
  exact ⟨_, _, pollAll_single poll (congrArg Result.fire fire), next.succ, rfl⟩

/-- The seconds up to k: the fires are the multiples of the period, and the next one is due. -/
theorem pollAll_pschDay_upTo {schedule : Half} {s : State} (start : s.psch.next = 0)
    (clear : s.psch.wait = false ∨ 0 < s.psch.lastHour.toNat) (low : 1 ≤ schedule.toNat) {k : Nat} (hk : k < 86400) :
    ∃ t m,
      pollAll ((List.range (k + 1)).map (pschPollAt schedule)) s =
        some ((List.range (k + 1)).map (fun n => decide (n % (86400 / schedule.toNat) = 0)), t) ∧
      NextMultiple (86400 / schedule.toNat) (k + 1) m ∧ t.psch = pschDue m (BitVec.ofNat 8 (k / 3600)) := by
  induction k with
  | zero =>
    have pos : 0 < 86400 / schedule.toNat := Nat.div_pos (by have := schedule.isLt; omega) low
    have observed : pschObserveHour 0 s.psch = pschDue 0 0 := by
      rw [pschObserveHour_eq, pschDue_of_lt 0 (by omega), start]
      rcases clear with wait | late
      · simp [wait]
      · simp [Nat.ne_of_gt late]
    exact pollAll_pschSecond hk low (NextMultiple.zero pos) observed
  | succ k ih =>
    obtain ⟨t, m, before, next, due⟩ := ih (by omega)
    have observed : pschObserveHour (BitVec.ofNat 8 ((k + 1) / 3600)) t.psch =
        pschDue m (BitVec.ofNat 8 ((k + 1) / 3600)) := by
      rw [due]
      refine pschObserveHour_pschDue m ?_
      simp only [BitVec.toNat_ofNat]
      omega
    obtain ⟨u, m', second, later, due'⟩ := pollAll_pschSecond hk low next observed
    refine ⟨u, m', ?_, later, due'⟩
    rw [List.range_succ, List.map_append, List.map_append]
    exact pollAll_append_of before second

end Sys2Proof.Machine

namespace Sys2Proof

open Machine

/-- Settles O48: the fires before the end of the day. -/
theorem schDayFiresOncePerPeriod : Obligations.SchDayFiresOncePerPeriod := by
  intro schedule s clear low high
  obtain ⟨fires, t, polls, count, latch⟩ := pollAll_schDay_before clear low high (Nat.le_refl 1440)
  have multiples : fires.count true = 1439 / (1440 / schedule.toNat) + 1 := by
    rw [count, count_multiples]
  refine ⟨fires, t, polls, multiples, ?_, ?_⟩
  · intro dvd
    rw [multiples]
    exact multiples_of_dividing_schedule (by omega) dvd
  · rw [latch, decide_eq_false_iff_not]
    exact fun last => last_minute_not_multiple low high last.2

/-- Settles O51: the fires up to the last second; when the period divides the day, the next fire is due right after it. -/
theorem pschDayFiresAtEveryPeriod : Obligations.PschDayFiresAtEveryPeriod := by
  intro schedule s start clear low
  obtain ⟨t, m, polls, next, due⟩ := pollAll_pschDay_upTo start clear low (show 86399 < 86400 by omega)
  refine ⟨t, polls, fun dvd => ⟨?_, ?_⟩⟩
  · rw [count_map_decide, count_multiples]
    exact multiples_of_dividing_schedule (by omega) dvd
  · rw [due, next.eq_of_dvd (Nat.div_dvd_of_dvd dvd)]
    rfl

end Sys2Proof

/-! SUPPORT. Proofs about what an operation may change (R23, R24, R29, R55, R121, R122, R271): everything a packet operation can
end in, and one effect of every operation. -/

namespace Sys2Proof.Machine

/-! ### Everything a packet operation can end in -/

/-- PARSE, its handlers and ERR (R5). -/
def TakesPacket (i : Instr) : Prop :=
  (encode i).isSome = true ∨ (∃ g c, i = .err g c) ∨ ∃ v len, i = .parse v len

/-- The ends of a packet operation: the result 0 of a PARSE without input, an error frame before any step, or the end of a
handler's steps, whose calls are of the operation's kinds. -/
inductive PacketEnd (i : Instr) (s : State) : State → Prop
  | empty : PacketEnd i s (s.returns (.length 0))
  | errorFrame (tag : Byte) (c : ErrorCode) : PacketEnd i s (raiseError tag c s)
  | handled {j : Instr} {tag : Byte} {e : Ending} {u : State} (kinds : ∀ x, mayCall j x = true → mayCall i x = true)
      (sound : structuralError s j = none) (steps : handlerSteps s j = .ok (e, u)) : PacketEnd i s (finish tag u e)

theorem encode_eq_cons {i : Instr} {bs : List Byte} (h : encode i = some bs) : ∃ tag rest, bs = tag :: rest := by
  cases i with
  | rdm | wrm | rds | wrs | fwu | ctl | unk => cases h; exact ⟨_, _, rfl⟩
  | _ => cases h

/-- A request that ends is answered with the frame of its structural error or has done its handler's steps. -/
theorem exec_request_next {i : Instr} {bs : List Byte} {s t : State} (packet : encode i = some bs)
    (h : exec i s = .next t) :
    (∃ tag c, structuralError s i = some c ∧ t = raiseError tag c s) ∨
    ∃ tag e u, structuralError s i = none ∧ handlerSteps s i = .ok (e, u) ∧ t = finish tag u e := by
  obtain ⟨tag, rest, rfl⟩ := encode_eq_cons packet
  cases d : parseDuty s (tag :: rest).length with
  | some r => rw [exec_of_duty packet d] at h; cases h
  | none =>
    have ready := parseReady_iff.2 d
    cases e : structuralError s i with
    | some c =>
      rw [exec_of_structuralError packet ready e] at h
      cases h
      exact .inl ⟨tag, c, rfl, rfl⟩
    | none =>
      rw [exec_of_steps packet ready e] at h
      cases steps : handlerSteps s i with
      | error r => rw [steps] at h; cases h
      | ok p => rw [steps] at h; cases h; exact .inr ⟨tag, p.1, p.2, rfl, rfl, rfl⟩

theorem PacketEnd.of_request {i j : Instr} {bs : List Byte} {s t : State} (packet : encode j = some bs)
    (kinds : ∀ x, mayCall j x = true → mayCall i x = true) (h : exec j s = .next t) : PacketEnd i s t := by
  rcases exec_request_next packet h with ⟨tag, c, -, rfl⟩ | ⟨tag, e, u, sound, steps, rfl⟩
  · exact .errorFrame tag c
  · exact .handled kinds sound steps

theorem exec_err_of_duty {tag : Byte} {c : ErrorCode} {s : State} {r : Refusal} (d : parseDuty s 1 = some r) :
    exec (.err tag c) s = .refused r := by
  change execErr tag c s = _
  rw [execErr, serve_of_duty d]

theorem exec_err_next {tag : Byte} {c : ErrorCode} {s t : State} (h : exec (.err tag c) s = .next t) :
    t = raiseError tag c s := by
  cases d : parseDuty s 1 with
  | some r => rw [exec_err_of_duty d] at h; cases h
  | none => rw [exec_err (parseReady_iff.2 d)] at h; cases h; rfl

theorem exec_parse_unreadable {len : Nat} {s : State} (d : parseDuty s len = none)
    (h : s.input.readRange 0 len = none) : exec (.parse true len) s = .refused .inputUnreadable := by
  change execParse true len s = _
  simp [execParse, d, h]

/-- What PARSE does when the host's duties are kept: it has no input, or IN is unreadable, or it does what the decoded
packet's handler does. -/
theorem exec_parse_cases {inValid : Bool} {len : Nat} {s : State} (d : parseDuty s len = none) :
    exec (.parse inValid len) s = .next (s.returns (.length 0)) ∨
    (inValid = true ∧ s.input.readRange 0 len = none ∧ exec (.parse inValid len) s = .refused .inputUnreadable) ∨
    ∃ tag rest, s.input.readRange 0 len = some (tag :: rest) ∧
      exec (.parse inValid len) s = exec (decodePacket tag rest) s := by
  cases inValid with
  | false => exact .inl (exec_parse_without_input d (.inl rfl))
  | true =>
    cases input : s.input.readRange 0 len with
    | none => exact .inr (.inl ⟨rfl, rfl, exec_parse_unreadable d input⟩)
    | some bs =>
      cases bs with
      | nil => exact .inl (exec_parse_without_input d (.inr (Memory.readRange_length input).symm))
      | cons tag rest => exact .inr (.inr ⟨tag, rest, rfl, exec_parse_of_duties_kept d input⟩)

theorem mayCall_parse (v : Bool) (len : Nat) (x : CallEvent) : mayCall (.parse v len) x = true := by
  cases x <;> rfl

theorem exec_packetEnd {i : Instr} {s t : State} (packet : TakesPacket i) (h : exec i s = .next t) :
    PacketEnd i s t := by
  rcases packet with request | ⟨tag, c, rfl⟩ | ⟨v, len, rfl⟩
  · obtain ⟨bs, hbs⟩ := Option.isSome_iff_exists.1 request
    exact .of_request hbs (fun _ => id) h
  · rw [exec_err_next h]
    exact .errorFrame tag c
  · cases d : parseDuty s len with
    | some r => rw [exec_parse_of_duty d] at h; cases h
    | none =>
      rcases exec_parse_cases (inValid := v) d with empty | ⟨-, -, unreadable⟩ | ⟨tag, rest, -, handler⟩
      · rw [empty] at h
        cases h
        exact .empty
      · rw [unreadable] at h
        cases h
      · rw [handler] at h
        exact .of_request (encode_decodePacket tag rest) (fun x _ => mayCall_parse v len x) h

/-! ### The effect of a handler's steps -/

/-- A call goes through the registered reference of the slot (R24). -/
def callRegistered (r : Reg) : CallEvent → Bool
  | .read ref _ _ => r.provValid && decide (ref = r.romRead)
  | .write ref _ _ _ => r.provValid && decide (ref = r.romWrite)
  | .firmware ref _ _ => r.fwValid && decide (ref = r.fw)
  | .command ref _ _ => r.cmdValid && decide (ref = r.cmd)

/-- A call that an operation may make when this is its registration slot (R55, R60). -/
def callAllowed (i : Instr) (r : Reg) (x : CallEvent) : Bool := mayCall i x && callRegistered r x

theorem readAllowed {i : Instr} {r : Reg} (kind : ∀ a ans, mayCall i (.read r.romRead a ans) = true)
    (registered : r.provValid = true) (a : Addr) (ans : ReadAnswer) : callAllowed i r (.read r.romRead a ans) = true := by
  simp [callAllowed, callRegistered, kind, registered]

theorem writeAllowed {i : Instr} {r : Reg} (kind : ∀ a v ans, mayCall i (.write r.romWrite a v ans) = true)
    (registered : r.provValid = true) (a : Addr) (v : Value) (ans : WriteAnswer) :
    callAllowed i r (.write r.romWrite a v ans) = true := by
  simp [callAllowed, callRegistered, kind, registered]

theorem PacketEffect.weaken {kind kind' : CallEvent → Bool} {hi : Nat} {s t : State} (h : PacketEffect kind hi s t)
    (le : ∀ x, kind x = true → kind' x = true) : PacketEffect kind' hi s t := by
  obtain ⟨es, history, allowed⟩ := h.calls
  exact { h with calls := ⟨es, history, fun x mem => le x (allowed x mem)⟩ }

/-- An unregistered provider is not called (R159). -/
theorem adapterRead_registered_effect {kind : CallEvent → Bool} {bufValid : Bool} {a : Addr} {s t : State}
    {st : Status} {v : Value} (hk : s.reg.provValid = true → ∀ a ans, kind (.read s.reg.romRead a ans) = true)
    (hi : Nat) (h : adapterRead bufValid a s = .ok (st, v, t)) : PacketEffect kind hi s t := by
  rcases adapterRead_ok h with ⟨-, -, -, rfl⟩ | ⟨-, registered, -⟩
  · exact useFree_effect kind hi s
  · exact adapterRead_effect (hk registered) hi h

theorem adapterWrite_registered_effect {kind : CallEvent → Bool} {bufValid : Bool} {a : Addr} {v : Value}
    {s t : State} {st : Status}
    (hk : s.reg.provValid = true → ∀ a v ans, kind (.write s.reg.romWrite a v ans) = true) (hi : Nat)
    (h : adapterWrite bufValid a v s = .ok (st, t)) : PacketEffect kind hi s t := by
  rcases adapterWrite_ok h with ⟨-, -, rfl⟩ | ⟨-, registered, -⟩
  · exact PacketEffect.refl kind hi _
  · exact adapterWrite_effect (hk registered) hi h

theorem readBlock_registered_effect {kind : CallEvent → Bool} {start : Addr} {n : Nat} {s t : State}
    {o : Option ErrorCode} (hk : s.reg.provValid = true → ∀ a ans, kind (.read s.reg.romRead a ans) = true)
    (h : readBlock start n 0 s = .ok (o, t)) : PacketEffect kind (multiLength n) s t := by
  cases registered : s.reg.provValid with
  | true => simpa using readBlock_effect (hk registered) h
  | false =>
    cases n with
    | zero => cases h; exact PacketEffect.refl kind _ _
    | succ n => rw [readBlock_of_error (adapterRead_of_unregistered registered)] at h; cases h

theorem writeBlock_registered_effect {kind : CallEvent → Bool} {start : Addr} {vs : List Value} {s t : State}
    {o : Option ErrorCode} (hk : s.reg.provValid = true → ∀ a v ans, kind (.write s.reg.romWrite a v ans) = true)
    (hi : Nat) (h : writeBlock start vs 0 s = .ok (o, t)) : PacketEffect kind hi s t := by
  cases registered : s.reg.provValid with
  | true => exact writeBlock_effect (hk registered) hi h
  | false =>
    cases vs with
    | nil => cases h; exact PacketEffect.refl kind hi _
    | cons v vs => rw [writeBlock_of_error (adapterWrite_of_unregistered registered)] at h; cases h

theorem eq_ok_of_map_eq_ok {α β : Type} {f : α → β} {x : Except Refusal α} {b : β} (h : x.map f = .ok b) :
    ∃ a, x = .ok a ∧ f a = b := by
  cases x with
  | error r => cases h
  | ok a => cases h; exact ⟨a, rfl, rfl⟩

theorem endOfBlock_eq {n : Nat} {o : Option ErrorCode} {t u : State} {e : Ending} (h : endOfBlock n (o, t) = (e, u)) :
    u = t ∧ (e = .ret n ∨ ∃ c, e = .raise c) := by
  cases o with
  | none => cases h; exact ⟨rfl, .inl rfl⟩
  | some c => cases h; exact ⟨rfl, .inr ⟨c, rfl⟩⟩

theorem endOfStatus_eq (n : Nat) (st : Status) : endOfStatus n st = .ret n ∨ ∃ c, endOfStatus n st = .raise c := by
  cases st with
  | ok => exact .inl rfl
  | error c => exact .inr ⟨c, rfl⟩

theorem ending_le {e : Ending} {m hi : Nat} (h : e = .ret m ∨ ∃ c, e = .raise c) (le : m ≤ hi) :
    ∀ n, e = .ret n → n ≤ hi := by
  rcases h with rfl | ⟨c, rfl⟩
  · rintro n ⟨⟩
    exact le
  · rintro n ⟨⟩

/-- The offset from which on a handler's steps store nothing in OUT: the end of the response of RDM, WRM, RDS and WRS (R113 to
R116), CAP for a registered handler (R251). -/
def handlerReach (s : State) : Instr → Nat
  | .rdm (.valid f) => multiLength f.count.toNat
  | .wrm _ => 5
  | .rds _ => 7
  | .wrs _ => 7
  | _ => s.cfg.cap.val

/-- What a handler's steps can do: their effect up to their reach, and no response longer than CAP. -/
structure StepsEffect (i : Instr) (s : State) (e : Ending) (u : State) : Prop where
  effect : PacketEffect (callAllowed i s.reg) (handlerReach s i) s u
  fits : ∀ n, e = .ret n → n ≤ s.cfg.cap.val

theorem rdm_stepsEffect {f : RdmFields} {s u : State} {e : Ending} (room : multiLength f.count.toNat ≤ s.cfg.cap.val)
    (steps : handlerSteps s (.rdm (.valid f)) = .ok (e, u)) : StepsEffect (.rdm (.valid f)) s e u := by
  obtain ⟨⟨o, t⟩, reads, ending⟩ := eq_ok_of_map_eq_ok steps
  obtain ⟨rfl, ends⟩ := endOfBlock_eq ending
  have header := writeOut_effect (callAllowed (.rdm (.valid f)) s.reg) s 0
    (0x03 :: (be16 f.start ++ be16 f.count)) (hi := multiLength f.count.toNat)
    (by simp only [multiLength, List.length_cons, List.length_append, be16_length]; omega)
  exact ⟨header.trans (readBlock_registered_effect (readAllowed fun _ _ => rfl) reads), ending_le ends room⟩

theorem wrm_stepsEffect {f : WrmFields} {s u : State} {e : Ending}
    (steps : handlerSteps s (.wrm (.valid f)) = .ok (e, u)) : StepsEffect (.wrm (.valid f)) s e u := by
  obtain ⟨⟨o, t⟩, writes, ending⟩ := eq_ok_of_map_eq_ok steps
  obtain ⟨rfl, ends⟩ := endOfBlock_eq ending
  have header := writeOut_effect (callAllowed (.wrm (.valid f)) s.reg) s 0
    (0x10 :: (be16 f.start ++ be16 (BitVec.ofNat 16 f.values.length))) (hi := 5) (Nat.le_refl 5)
  exact ⟨header.trans (writeBlock_registered_effect (writeAllowed fun _ _ _ => rfl) 5 writes),
    ending_le ends (le_trans (by omega) s.cfg.cap.property)⟩

theorem rds_stepsEffect {a : Addr} {s u : State} {e : Ending}
    (steps : handlerSteps s (.rds (.valid a)) = .ok (e, u)) : StepsEffect (.rds (.valid a)) s e u := by
  obtain ⟨⟨st, v, t⟩, read, ending⟩ := eq_ok_of_map_eq_ok steps
  cases ending
  have header := writeOut_effect (callAllowed (.rds (.valid a)) s.reg) s 0 (0x07 :: be16 a) (hi := 7)
    (show 3 ≤ 7 by omega)
  have answer := adapterRead_registered_effect (s := s.writeOut 0 (0x07 :: be16 a))
    (kind := callAllowed (.rds (.valid a)) s.reg) (readAllowed fun _ _ => rfl) 7 read
  exact ⟨(header.trans answer).trans (writeOut_effect _ _ 3 (be32 v) (Nat.le_refl 7)),
    ending_le (endOfStatus_eq 7 st) s.cfg.cap.property⟩

theorem wrs_stepsEffect {f : WrsFields} {s u : State} {e : Ending}
    (steps : handlerSteps s (.wrs (.valid f)) = .ok (e, u)) : StepsEffect (.wrs (.valid f)) s e u := by
  obtain ⟨⟨st, t⟩, write, ending⟩ := eq_ok_of_map_eq_ok steps
  cases ending
  have mirror := writeOut_effect (callAllowed (.wrs (.valid f)) s.reg) s 0
    (0x06 :: (be16 f.addr ++ be32 f.value)) (hi := 7) (Nat.le_refl 7)
  exact ⟨mirror.trans (adapterWrite_registered_effect (writeAllowed fun _ _ _ => rfl) 7 write),
    ending_le (endOfStatus_eq 7 st) s.cfg.cap.property⟩

theorem fwu_stepsEffect {body : List Byte} {s u : State} {e : Ending} (present : s.reg.fwValid = true)
    (steps : handlerSteps s (.fwu (.valid body)) = .ok (e, u)) : StepsEffect (.fwu (.valid body)) s e u := by
  obtain ⟨rfl, inside, length, ending⟩ := callFirmware_ok steps
  exact ⟨afterFirmware_effect (fun _ _ => by simpa [callAllowed, mayCall, callRegistered] using present) _ inside,
    ending_le ending length⟩

theorem ctl_stepsEffect {body : List Byte} {s u : State} {e : Ending} (present : s.reg.cmdValid = true)
    (steps : handlerSteps s (.ctl (.valid body)) = .ok (e, u)) : StepsEffect (.ctl (.valid body)) s e u := by
  obtain ⟨rfl, inside, length, ending⟩ := callCommand_ok steps
  exact ⟨afterCommand_effect (fun _ _ => by simpa [callAllowed, mayCall, callRegistered] using present) _ inside,
    ending_le ending length⟩

theorem handlerSteps_effect {i : Instr} {s u : State} {e : Ending} (sound : structuralError s i = none)
    (steps : handlerSteps s i = .ok (e, u)) : StepsEffect i s e u := by
  cases i with
  | rdm b =>
    cases b with
    | badLength rest => cases sound
    | valid f => exact rdm_stepsEffect (by simpa [structuralError] using sound) steps
  | wrm b =>
    cases b with
    | badLength rest => cases sound
    | valid f => exact wrm_stepsEffect steps
  | rds b =>
    cases b with
    | badLength rest => cases sound
    | valid a => exact rds_stepsEffect steps
  | wrs b =>
    cases b with
    | badLength rest => cases sound
    | valid f => exact wrs_stepsEffect steps
  | fwu b =>
    cases b with
    | badLength rest => cases sound
    | valid body => exact fwu_stepsEffect (by simpa [structuralError] using sound) steps
  | ctl b =>
    cases b with
    | badLength rest => cases sound
    | valid body => exact ctl_stepsEffect (by simpa [structuralError] using sound) steps
  | _ =>
    cases steps
    exact ⟨PacketEffect.refl _ _ _, by rintro n ⟨⟩; omega⟩

theorem handlerReach_le {i : Instr} {s : State} (sound : structuralError s i = none) :
    handlerReach s i ≤ s.cfg.cap.val := by
  have seven := s.cfg.cap.property
  cases i with
  | rdm b =>
    cases b with
    | badLength rest => cases sound
    | valid f => simpa [structuralError, handlerReach] using sound
  | wrm | rds | wrs => simp only [handlerReach]; omega
  | _ => exact Nat.le_refl _

/-- Every end of a packet operation changes bytes of OUT below CAP only, and makes only calls that it may make. -/
theorem PacketEnd.effect {i : Instr} {s t : State} (h : PacketEnd i s t) :
    PacketEffect (callAllowed i s.reg) s.cfg.cap.val s t := by
  have two : 2 ≤ s.cfg.cap.val := le_trans (by omega) s.cfg.cap.property
  cases h with
  | empty => exact returns_effect _ _ _ _
  | errorFrame tag c => exact finish_effect _ two tag s (.raise c)
  | @handled j tag e u kinds sound steps =>
    have effect := ((handlerSteps_effect sound steps).effect.mono (handlerReach_le sound)).weaken
      (kind' := callAllowed i s.reg) fun x => by
        simp only [callAllowed, Bool.and_eq_true]
        exact And.imp_left (kinds x)
    exact effect.trans (finish_effect _ two tag u e)

theorem PacketEnd.result_le {i : Instr} {s t : State} (h : PacketEnd i s t) :
    ∃ n, t.result = .length n ∧ n ≤ s.cfg.cap.val := by
  have two : 2 ≤ s.cfg.cap.val := le_trans (by omega) s.cfg.cap.property
  cases h with
  | empty => exact ⟨0, rfl, Nat.zero_le _⟩
  | errorFrame tag c => exact ⟨2, rfl, two⟩
  | @handled j tag e u kinds sound steps =>
    cases e with
    | ret n => exact ⟨n, rfl, (handlerSteps_effect sound steps).fits n rfl⟩
    | raise c => exact ⟨2, rfl, two⟩

/-! ### The answers that are taken -/

/-- The answers still to come are those from before, less the ones taken (R60). -/
structure AnswersTaken (s t : State) : Prop where
  reads : ∃ n, t.readAnswers = s.readAnswers.drop n
  writes : ∃ n, t.writeAnswers = s.writeAnswers.drop n
  firmware : ∃ n, t.firmwareAnswers = s.firmwareAnswers.drop n
  commands : ∃ n, t.commandAnswers = s.commandAnswers.drop n

theorem drop_trans {α : Type} {l m k : List α} (h : ∃ n, m = l.drop n) (g : ∃ n, k = m.drop n) :
    ∃ n, k = l.drop n := by
  obtain ⟨n, rfl⟩ := h
  obtain ⟨n', rfl⟩ := g
  exact ⟨n + n', List.drop_drop⟩

theorem AnswersTaken.refl (s : State) : AnswersTaken s s := ⟨⟨0, rfl⟩, ⟨0, rfl⟩, ⟨0, rfl⟩, ⟨0, rfl⟩⟩

theorem AnswersTaken.trans {s t u : State} (h : AnswersTaken s t) (g : AnswersTaken t u) : AnswersTaken s u :=
  ⟨drop_trans h.reads g.reads, drop_trans h.writes g.writes, drop_trans h.firmware g.firmware,
    drop_trans h.commands g.commands⟩

theorem AnswersTaken.writeOut {s t : State} (h : AnswersTaken s t) (k : Nat) (bs : List Byte) :
    AnswersTaken s (t.writeOut k bs) := ⟨h.reads, h.writes, h.firmware, h.commands⟩

theorem AnswersTaken.finish {s t : State} (h : AnswersTaken s t) (tag : Byte) (e : Ending) :
    AnswersTaken s (finish tag t e) := by
  cases e <;> exact ⟨h.reads, h.writes, h.firmware, h.commands⟩

theorem adapterRead_taken {bufValid : Bool} {a : Addr} {s t : State} {st : Status} {v : Value}
    (h : adapterRead bufValid a s = .ok (st, v, t)) : AnswersTaken s t := by
  have one : AnswersTaken s (s.afterRead a) := ⟨⟨1, by simp⟩, ⟨0, rfl⟩, ⟨0, rfl⟩, ⟨0, rfl⟩⟩
  rcases adapterRead_ok h with ⟨-, -, -, rfl⟩ | ⟨-, -, -, -, ⟨-, -, rfl⟩ | ⟨c, -, -, rfl⟩⟩
  · exact ⟨⟨0, rfl⟩, ⟨0, rfl⟩, ⟨0, rfl⟩, ⟨0, rfl⟩⟩
  · exact one
  · exact ⟨one.reads, one.writes, one.firmware, one.commands⟩

theorem adapterWrite_taken {bufValid : Bool} {a : Addr} {v : Value} {s t : State} {st : Status}
    (h : adapterWrite bufValid a v s = .ok (st, t)) : AnswersTaken s t := by
  rcases adapterWrite_ok h with ⟨-, -, rfl⟩ | ⟨-, -, -, -, rfl⟩
  · exact .refl _
  · exact ⟨⟨0, rfl⟩, ⟨1, by simp⟩, ⟨0, rfl⟩, ⟨0, rfl⟩⟩

theorem readBlock_taken {start : Addr} {n i : Nat} {s t : State} {o : Option ErrorCode}
    (h : readBlock start n i s = .ok (o, t)) : AnswersTaken s t := by
  induction n generalizing i s with
  | zero => cases h; exact .refl _
  | succ n ih =>
    rw [readBlock] at h
    split at h
    · cases h
    next read => exact ((adapterRead_taken read).writeOut _ _).trans (ih h)
    next read => cases h; exact (adapterRead_taken read).writeOut _ _

theorem writeBlock_taken {start : Addr} {vs : List Value} {i : Nat} {s t : State} {o : Option ErrorCode}
    (h : writeBlock start vs i s = .ok (o, t)) : AnswersTaken s t := by
  induction vs generalizing i s with
  | nil => cases h; exact .refl _
  | cons v vs ih =>
    rw [writeBlock] at h
    split at h
    · cases h
    next write => exact (adapterWrite_taken write).trans (ih h)
    next write => cases h; exact adapterWrite_taken write

theorem handlerSteps_taken {i : Instr} {s u : State} {e : Ending} (steps : handlerSteps s i = .ok (e, u)) :
    AnswersTaken s u := by
  unfold handlerSteps at steps
  split at steps
  · obtain ⟨⟨o, t⟩, reads, ending⟩ := eq_ok_of_map_eq_ok steps
    obtain ⟨rfl, -⟩ := endOfBlock_eq ending
    exact ((AnswersTaken.refl s).writeOut _ _).trans (readBlock_taken reads)
  · obtain ⟨⟨o, t⟩, writes, ending⟩ := eq_ok_of_map_eq_ok steps
    obtain ⟨rfl, -⟩ := endOfBlock_eq ending
    exact ((AnswersTaken.refl s).writeOut _ _).trans (writeBlock_taken writes)
  · obtain ⟨⟨st, v, t⟩, read, ending⟩ := eq_ok_of_map_eq_ok steps
    cases ending
    exact (((AnswersTaken.refl s).writeOut _ _).trans (adapterRead_taken read)).writeOut _ _
  · obtain ⟨⟨st, t⟩, write, ending⟩ := eq_ok_of_map_eq_ok steps
    cases ending
    exact ((AnswersTaken.refl s).writeOut _ _).trans (adapterWrite_taken write)
  · obtain ⟨rfl, -⟩ := callFirmware_ok steps
    exact ⟨⟨0, rfl⟩, ⟨0, rfl⟩, ⟨1, by simp⟩, ⟨0, rfl⟩⟩
  · obtain ⟨rfl, -⟩ := callCommand_ok steps
    exact ⟨⟨0, rfl⟩, ⟨0, rfl⟩, ⟨0, rfl⟩, ⟨1, by simp⟩⟩
  · cases steps
    exact .refl s

theorem PacketEnd.taken {i : Instr} {s t : State} (h : PacketEnd i s t) : AnswersTaken s t := by
  cases h with
  | empty => exact (AnswersTaken.refl s).finish 0 (.ret 0)
  | errorFrame tag c => exact (AnswersTaken.refl s).finish tag (.raise c)
  | handled kinds sound steps => exact (handlerSteps_taken steps).finish _ _

end Sys2Proof.Machine

namespace Sys2Proof

open Machine

/-- Settles O30: the bytes are those of every end's effect, the length that of every end's result. -/
theorem responsesStayInsideCap : Obligations.ResponsesStayInsideCap := by
  intro i s t packet h
  have ending := exec_packetEnd packet h
  exact ⟨ending.result_le, ending.effect.outside, fun a => by rw [ending.effect.input],
    fun a => by rw [ending.effect.eout]⟩

/-- Settles O31: every end's effect, and the answers it takes. -/
theorem packetsLeaveTheBlockAlone : Obligations.PacketsLeaveTheBlockAlone := by
  intro i s t packet h
  have ending := exec_packetEnd packet h
  have effect := ending.effect
  have taken := ending.taken
  exact ⟨effect.reg, effect.sch, effect.psch, effect.cfg, effect.input, effect.eout, effect.room, effect.inOutOverlap,
    effect.pending, taken.reads, taken.writes, taken.firmware, taken.commands⟩

end Sys2Proof

/-! SUPPORT. Proofs that packet operations do not see the schedulers, and of the bytes each handler may change (R58, R121). -/

namespace Sys2Proof.Machine

/-! ### A state seen without its schedulers, EOUT and result -/

/-- The state with other schedulers, another EOUT and another earlier result. -/
def State.replaced (x : Sch) (y : Psch) (e : Buffer) (r : Result) (s : State) : State :=
  { s with sch := x, psch := y, eout := e, result := r }

section
variable (x : Sch) (y : Psch) (e : Buffer) (r : Result)

theorem adapterRead_replaced (bufValid : Bool) (a : Addr) (s : State) :
    adapterRead bufValid a (s.replaced x y e r) =
      (adapterRead bufValid a s).map (fun p => (p.1, p.2.1, p.2.2.replaced x y e r)) :=
  adapterRead_map (f := State.replaced x y e r) rfl rfl rfl rfl fun _ => rfl

theorem adapterWrite_replaced (bufValid : Bool) (a : Addr) (v : Value) (s : State) :
    adapterWrite bufValid a v (s.replaced x y e r) =
      (adapterWrite bufValid a v s).map (fun p => (p.1, p.2.replaced x y e r)) :=
  adapterWrite_map (f := State.replaced x y e r) rfl rfl rfl

theorem readBlock_replaced (start : Addr) (n i : Nat) (s : State) :
    readBlock start n i (s.replaced x y e r) =
      (readBlock start n i s).map (fun p => (p.1, p.2.replaced x y e r)) := by
  induction n generalizing i s with
  | zero => rfl
  | succ n ih =>
    rw [readBlock, readBlock, adapterRead_replaced]
    rcases adapterRead true (addrAt start i) s with refusal | ⟨st, v, t⟩
    · rfl
    · cases st with
      | ok => exact ih (i + 1) (t.writeOut (multiLength i) (be32 v))
      | error c => rfl

theorem writeBlock_replaced (start : Addr) (vs : List Value) (i : Nat) (s : State) :
    writeBlock start vs i (s.replaced x y e r) =
      (writeBlock start vs i s).map (fun p => (p.1, p.2.replaced x y e r)) := by
  induction vs generalizing i s with
  | nil => rfl
  | cons v vs ih =>
    rw [writeBlock, writeBlock, adapterWrite_replaced]
    rcases adapterWrite true (addrAt start i) v s with refusal | ⟨st, t⟩
    · rfl
    · cases st with
      | ok => exact ih (i + 1) t
      | error c => rfl

theorem callFirmware_replaced (p : List Byte) (s : State) :
    callFirmware p (s.replaced x y e r) = (callFirmware p s).map (fun q => (q.1, q.2.replaced x y e r)) := by
  have answer : (s.replaced x y e r).firmwareAnswer p = s.firmwareAnswer p := rfl
  have cfg : (s.replaced x y e r).cfg = s.cfg := rfl
  unfold callFirmware
  rw [answer, cfg]
  split <;> rfl

theorem callCommand_replaced (p : List Byte) (s : State) :
    callCommand p (s.replaced x y e r) = (callCommand p s).map (fun q => (q.1, q.2.replaced x y e r)) := by
  have answer : (s.replaced x y e r).commandAnswer p = s.commandAnswer p := rfl
  have cfg : (s.replaced x y e r).cfg = s.cfg := rfl
  unfold callCommand
  rw [answer, cfg]
  split <;> rfl

theorem writeOut_replaced (s : State) (i : Nat) (bs : List Byte) :
    (s.replaced x y e r).writeOut i bs = (s.writeOut i bs).replaced x y e r := rfl

theorem handlerSteps_replaced (s : State) (i : Instr) :
    handlerSteps (s.replaced x y e r) i = (handlerSteps s i).map (fun q => (q.1, q.2.replaced x y e r)) := by
  unfold handlerSteps
  split
  next f =>
    rw [writeOut_replaced, readBlock_replaced]
    rcases readBlock f.start f.count.toNat 0 _ with refusal | ⟨_ | c, t⟩ <;> rfl
  next f =>
    rw [writeOut_replaced, writeBlock_replaced]
    rcases writeBlock f.start f.values 0 _ with refusal | ⟨_ | c, t⟩ <;> rfl
  next a =>
    rw [writeOut_replaced, adapterRead_replaced]
    rcases adapterRead true a _ with refusal | ⟨st, v, t⟩ <;> rfl
  next f =>
    rw [writeOut_replaced, adapterWrite_replaced]
    rcases adapterWrite true f.addr f.value _ with refusal | ⟨st, t⟩ <;> rfl
  · exact callFirmware_replaced x y e r _ s
  · exact callCommand_replaced x y e r _ s
  · rfl

/-- The next state of a packet operation from a replaced state: the result is the operation's own. -/
def State.kept (x : Sch) (y : Psch) (e : Buffer) (t : State) : State := { t with sch := x, psch := y, eout := e }

theorem finish_replaced (tag : Byte) (s : State) (ending : Ending) :
    finish tag (s.replaced x y e r) ending = (finish tag s ending).kept x y e := by
  cases ending <;> rfl

theorem exec_request_replaced {i : Instr} {bs : List Byte} (s : State) (packet : encode i = some bs) :
    exec i (s.replaced x y e r) = onNext (State.kept x y e) (exec i s) := by
  obtain ⟨tag, rest, rfl⟩ := encode_eq_cons packet
  have duty : parseDuty (s.replaced x y e r) (tag :: rest).length = parseDuty s (tag :: rest).length := rfl
  have structural : structuralError (s.replaced x y e r) i = structuralError s i := rfl
  cases d : parseDuty s (tag :: rest).length with
  | some refusal => rw [exec_of_duty packet d, exec_of_duty packet (duty.trans d)]; rfl
  | none =>
    have ready := parseReady_iff.2 d
    have ready' := parseReady_iff.2 (duty.trans d)
    cases error : structuralError s i with
    | some c =>
      rw [exec_of_structuralError packet ready error, exec_of_structuralError packet ready' (structural.trans error)]
      rfl
    | none =>
      rw [exec_of_steps packet ready error, exec_of_steps packet ready' (structural.trans error),
        handlerSteps_replaced]
      rcases handlerSteps s i with refusal | ⟨ending, t⟩
      · rfl
      · exact congrArg Host.Outcome.next (finish_replaced x y e r tag t ending)

theorem exec_packet_replaced {i : Instr} (s : State) (packet : TakesPacket i) :
    exec i (s.replaced x y e r) = onNext (State.kept x y e) (exec i s) := by
  rcases packet with request | ⟨tag, c, rfl⟩ | ⟨v, len, rfl⟩
  · obtain ⟨bs, hbs⟩ := Option.isSome_iff_exists.1 request
    exact exec_request_replaced x y e r s hbs
  · have duty : parseDuty (s.replaced x y e r) 1 = parseDuty s 1 := rfl
    cases d : parseDuty s 1 with
    | some refusal => rw [exec_err_of_duty d, exec_err_of_duty (duty.trans d)]; rfl
    | none => rw [exec_err (parseReady_iff.2 d), exec_err (parseReady_iff.2 (duty.trans d))]; rfl
  · have duty : parseDuty (s.replaced x y e r) len = parseDuty s len := rfl
    cases d : parseDuty s len with
    | some refusal => rw [exec_parse_of_duty d, exec_parse_of_duty (duty.trans d)]; rfl
    | none =>
      have d' := duty.trans d
      cases v with
      | false => rw [exec_parse_without_input d (.inl rfl), exec_parse_without_input d' (.inl rfl)]; rfl
      | true =>
        cases input : s.input.readRange 0 len with
        | none => rw [exec_parse_unreadable d input, exec_parse_unreadable d' input]; rfl
        | some bs =>
          cases bs with
          | nil =>
            have empty : len = 0 := (Memory.readRange_length input).symm
            rw [exec_parse_without_input d (.inr empty), exec_parse_without_input d' (.inr empty)]
            rfl
          | cons tag rest =>
            rw [exec_parse_of_duties_kept d input, exec_parse_of_duties_kept d' input]
            exact exec_request_replaced x y e r s (encode_decodePacket tag rest)

end

/-! ### The bytes of OUT -/

theorem finish_read {a : Nat} (tag : Byte) (s : State) (e : Ending) (h : 2 ≤ a) :
    (finish tag s e).out.cells.read a = s.out.cells.read a :=
  (finish_effect (fun _ => true) (Nat.le_refl 2) tag s e).outside a h

theorem raiseError_read {a : Nat} (tag : Byte) (c : ErrorCode) (s : State) (h : 2 ≤ a) :
    (raiseError tag c s).out.cells.read a = s.out.cells.read a :=
  finish_read tag s (.raise c) h

/-- Beyond the error frame and its handler's reach a request changes no byte of OUT. -/
theorem exec_request_read {i : Instr} {bs : List Byte} {s t : State} {a : Nat} (packet : encode i = some bs)
    (h : exec i s = .next t) (frame : 2 ≤ a) (reach : handlerReach s i ≤ a) :
    t.out.cells.read a = s.out.cells.read a := by
  rcases exec_request_next packet h with ⟨tag, c, -, rfl⟩ | ⟨tag, e, u, sound, steps, rfl⟩
  · exact raiseError_read tag c s frame
  · exact (finish_read tag u e frame).trans ((handlerSteps_effect sound steps).effect.outside a reach)

theorem exec_fwu_read {body : List Byte} {s t : State} {a : Nat} (h : exec (.fwu (.valid body)) s = .next t)
    (frame : 2 ≤ a) (others : ∀ c ∈ (s.firmwareAnswer (0x29 :: body)).stores, c.1 ≠ a) :
    t.out.cells.read a = s.out.cells.read a := by
  rcases exec_request_next rfl h with ⟨tag, c, -, rfl⟩ | ⟨tag, e, u, -, steps, rfl⟩
  · exact raiseError_read tag c s frame
  · obtain ⟨rfl, -⟩ := callFirmware_ok steps
    exact (finish_read tag _ e frame).trans (Memory.read_writeCells_other _ _ others)

theorem exec_ctl_read {body : List Byte} {s t : State} {a : Nat} (h : exec (.ctl (.valid body)) s = .next t)
    (frame : 2 ≤ a) (others : ∀ c ∈ (s.commandAnswer (0x27 :: body)).stores, c.1 ≠ a) :
    t.out.cells.read a = s.out.cells.read a := by
  rcases exec_request_next rfl h with ⟨tag, c, -, rfl⟩ | ⟨tag, e, u, -, steps, rfl⟩
  · exact raiseError_read tag c s frame
  · obtain ⟨rfl, -⟩ := callCommand_ok steps
    exact (finish_read tag _ e frame).trans (Memory.read_writeCells_other _ _ others)

theorem encode_of_structuralError {i : Instr} {s : State} (h : (structuralError s i).isSome = true) :
    ∃ bs, encode i = some bs := by
  cases i with
  | rdm | wrm | rds | wrs | fwu | ctl | unk => exact ⟨_, rfl⟩
  | _ => cases h

theorem exec_structuralError_read {i : Instr} {s t : State} {a : Nat} (error : (structuralError s i).isSome = true)
    (h : exec i s = .next t) (frame : 2 ≤ a) : t.out.cells.read a = s.out.cells.read a := by
  obtain ⟨bs, packet⟩ := encode_of_structuralError error
  rcases exec_request_next packet h with ⟨tag, c, -, rfl⟩ | ⟨tag, e, u, sound, -, rfl⟩
  · exact raiseError_read tag c s frame
  · rw [sound] at error
    cases error

end Sys2Proof.Machine

namespace Sys2Proof

open Machine

/-- Settles O32: the operation is run on the replaced state. -/
theorem packetsIgnoreTheSchedulers : Obligations.PacketsIgnoreTheSchedulers :=
  fun _ s x y e r packet => exec_packet_replaced x y e r s packet

/-- Settles O33: beyond the error frame a request stores up to its reach only, and a registered handler what it says. -/
theorem handlersStoreOnlyTheirBytes : Obligations.HandlersStoreOnlyTheirBytes := by
  intro s t a
  refine ⟨?_, ?_, ?_, ?_, fun _ h => exec_fwu_read h, fun _ h => exec_ctl_read h,
    fun _ error h => exec_structuralError_read error h, ?_⟩
  · exact fun start count h reach => exec_request_read rfl h (by omega) reach
  · exact fun start vs h reach => exec_request_read rfl h (by omega) reach
  · exact fun d h reach => exec_request_read rfl h (by omega) reach
  · exact fun f h reach => exec_request_read rfl h (by omega) reach
  · intro g c h frame
    rw [exec_err_next h]
    exact raiseError_read g c s frame

end Sys2Proof

/-! SUPPORT. Proofs about every operation: what it may write of the block's state, whom it may call, and the invariant that every
step keeps (R23, R24, R26, R28, R29, R55, R271, R272). -/

namespace Sys2Proof.Machine

/-! ### REGISTER -/

/-- The slot as REGISTER writes it (R156). -/
def registeredSlot (r w f c : Option Ref) : Reg :=
  { provValid := true, fwValid := f.isSome, cmdValid := c.isSome, romRead := r, romWrite := w, fw := f, cmd := c }

/-- A REGISTER that ends has written the whole slot, with both provider primitives, or nothing of it. -/
theorem exec_register_next {r w f c : Option Ref} {s t : State} (h : exec (.register r w f c) s = .next t) :
    (r.isSome = true ∧ w.isSome = true ∧ t = { s with reg := registeredSlot r w f c }.returns (.registered true)) ∨
    t = s.returns (.registered false) := by
  change execRegister r w f c s = _ at h
  unfold execRegister at h
  split at h
  next both =>
    obtain ⟨hr, hw⟩ := Bool.and_eq_true_iff.1 both
    cases h
    exact .inl ⟨hr, hw, rfl⟩
  next => cases h; exact .inr rfl

theorem registeredSlot_consistent {r w f c : Option Ref} (hr : r.isSome = true) (hw : w.isSome = true) :
    (registeredSlot r w f c).consistent = true := by
  simp [Reg.consistent, registeredSlot, hr, hw]

/-! ### ADAPT_READ, ADAPT_WRITE and ENC_SHORT -/

theorem exec_adaptRead_next {bufValid : Bool} {a : Addr} {s t : State}
    (h : exec (.adaptRead bufValid a) s = .next t) :
    ∃ st v u, adapterRead bufValid a s = .ok (st, v, u) ∧ t = u.returns (.read st v) := by
  cases read : adapterRead bufValid a s with
  | error refusal => rw [exec_adaptRead_of_error read] at h; cases h
  | ok p => rw [exec_adaptRead_of_ok read] at h; cases h; exact ⟨p.1, p.2.1, p.2.2, rfl, rfl⟩

theorem exec_adaptWrite_next {bufValid : Bool} {a : Addr} {v : Value} {s t : State}
    (h : exec (.adaptWrite bufValid a v) s = .next t) :
    ∃ st u, adapterWrite bufValid a v s = .ok (st, u) ∧ t = u.returns (.write st) := by
  cases write : adapterWrite bufValid a v s with
  | error refusal => rw [exec_adaptWrite_of_error write] at h; cases h
  | ok p => rw [exec_adaptWrite_of_ok write] at h; cases h; exact ⟨p.1, p.2, rfl, rfl⟩

theorem emitBlocks_of_error {a : SixBit} {more : List SixBit} {n : Nat} {s : State} {r : Refusal}
    (h : adapterRead true (additionalAddr a) s = .error r) : emitBlocks (a :: more) n s = .error r := by
  rw [emitBlocks, h]

/-- Without a registration ENC_SHORT reads nothing (R159). -/
theorem exec_encShort_unregistered {payload : Word} {number : Byte} {schedule : Half} {packed : Word} {s t : State}
    (unregistered : s.reg.provValid = false) (h : exec (.encShort payload number schedule packed) s = .next t) :
    t.history = s.history := by
  rcases exec_encShort_next h with rfl | ⟨n, u, blocks, rfl⟩
  · rfl
  · cases addresses : unpackAddresses packed with
    | nil => rw [addresses] at blocks; cases blocks; rfl
    | cons a more =>
      rw [addresses, emitBlocks_of_error (r := .providerNotRegistered)] at blocks
      · cases blocks
      · exact adapterRead_of_unregistered unregistered

/-! ### The effect of an operation -/

/-- What any operation may change of the configuration, the block's state and the history, and the forms it keeps. -/
structure OperationEffect (i : Instr) (s t : State) : Prop where
  cfg : t.cfg = s.cfg
  reg : t.reg = s.reg ∨
    ∃ r w f c, i = .register r w f c ∧ r.isSome = true ∧ w.isSome = true ∧ t.reg = registeredSlot r w f c
  sch : t.sch = s.sch ∨ ((∃ h m d, i = .schPoll h m d) ∧ t.psch = s.psch ∧ t.reg = s.reg)
  psch : t.psch = s.psch ∨ ((∃ h m c d, i = .pschPoll h m c d) ∧ t.sch = s.sch ∧ t.reg = s.reg)
  calls : ∃ es, t.history = s.history ++ es ∧ ∀ x ∈ es, callAllowed i s.reg x = true
  canonical : s.canonical = true → t.canonical = true
  inRange : s.psch.inRange = true → t.psch.inRange = true

theorem State.canonical_iff {s : State} : s.canonical = true ↔
    Memory.wf s.input = true ∧ Memory.wf s.out.cells = true ∧ Memory.wf s.eout.cells = true := by
  simp [State.canonical, and_assoc]

theorem PacketEffect.operation {i : Instr} {hi : Nat} {s t : State}
    (h : PacketEffect (callAllowed i s.reg) hi s t) : OperationEffect i s t where
  cfg := h.cfg
  reg := .inl h.reg
  sch := .inl h.sch
  psch := .inl h.psch
  calls := h.calls
  canonical := by
    simp only [State.canonical_iff, h.input, h.eout]
    exact fun ⟨input, out, eout⟩ => ⟨input, h.canonical out, eout⟩
  inRange := by rw [h.psch]; exact id

theorem MessageEffect.operation {i : Instr} {hi : Nat} {s t : State} (h : MessageEffect hi s t)
    (calls : t.history = s.history ∨ ∀ a ans, callAllowed i s.reg (.read s.reg.romRead a ans) = true) :
    OperationEffect i s t where
  cfg := h.cfg
  reg := .inl h.reg
  sch := .inl h.sch
  psch := .inl h.psch
  calls := by
    rcases calls with silent | allowed
    · exact ⟨[], by simp [silent], by simp⟩
    · obtain ⟨es, history, reads⟩ := h.calls
      refine ⟨es, history, fun x mem => ?_⟩
      obtain ⟨a, ans, rfl⟩ := reads x mem
      exact allowed a ans
  canonical := by
    simp only [State.canonical_iff, h.input, h.out]
    exact fun ⟨input, out, eout⟩ => ⟨input, out, h.canonical eout⟩
  inRange := by rw [h.psch]; exact id

theorem emit_operation {i : Instr} {message : List Byte} {s t : State} (h : emit message s = .next t) :
    OperationEffect i s t :=
  (emit_effect h).1.operation (.inl (emit_effect h).2.2)

theorem pschAdvance_inRange {hour minute second : Byte} {schedule : Half} {p : Psch}
    (time : calendarTime hour minute second = true) (h : p.inRange = true) :
    (pschAdvance hour minute second schedule p).2.inRange = true := by
  simp only [Psch.inRange, Bool.and_eq_true, decide_eq_true_eq, pschAdvance_lastHour] at h ⊢
  exact ⟨pschAdvance_next_lt h.1, (calendarTime_eq_true.1 time).1⟩

theorem exec_register_operation {r w f c : Option Ref} {s t : State} (h : exec (.register r w f c) s = .next t) :
    OperationEffect (.register r w f c) s t := by
  rcases exec_register_next h with ⟨hr, hw, rfl⟩ | rfl
  · exact ⟨rfl, .inr ⟨r, w, f, c, rfl, hr, hw, rfl⟩, .inl rfl, .inl rfl, ⟨[], by simp, by simp⟩, id, id⟩
  · exact (returns_effect (callAllowed _ s.reg) 0 s _).operation

theorem exec_pschPoll_operation {hour minute second : Byte} {schedule : Half} {s t : State}
    (h : exec (.pschPoll hour minute second schedule) s = .next t) :
    OperationEffect (.pschPoll hour minute second schedule) s t := by
  obtain ⟨time, rfl⟩ := exec_pschPoll_next h
  exact ⟨rfl, .inl rfl, .inl rfl, .inr ⟨⟨_, _, _, _, rfl⟩, rfl, rfl⟩, ⟨[], by simp, by simp⟩, id,
    pschAdvance_inRange time⟩

theorem exec_operation {i : Instr} {s t : State} (h : exec i s = .next t) : OperationEffect i s t := by
  cases i with
  | rdm | wrm | rds | wrs | fwu | ctl | unk => exact (exec_packetEnd (.inl rfl) h).effect.operation
  | err tag c => exact (exec_packetEnd (.inr (.inl ⟨tag, c, rfl⟩)) h).effect.operation
  | parse v len => exact (exec_packetEnd (.inr (.inr ⟨v, len, rfl⟩)) h).effect.operation
  | encEvent eventId payload => exact emit_operation (message := eventMessage eventId payload) h
  | encStart resetCount => exact emit_operation (message := eventMessage 0 (startPayload resetCount)) h
  | encPair parameterId value diff =>
    exact emit_operation (message := pairMessage s.cfg.pairEventTag.val parameterId value diff) h
  | encShort payload number schedule packed =>
    refine (exec_encShort_effect h).operation ?_
    cases registered : s.reg.provValid with
    | false => exact .inl (exec_encShort_unregistered registered h)
    | true => exact .inr (readAllowed (fun _ _ => rfl) registered)
  | register r w f c => exact exec_register_operation h
  | adaptRead bufValid a =>
    obtain ⟨st, v, u, read, rfl⟩ := exec_adaptRead_next h
    have effect := adapterRead_registered_effect (kind := callAllowed (.adaptRead bufValid a) s.reg)
      (readAllowed fun _ _ => rfl) 0 read
    exact (effect.trans (returns_effect _ 0 u _)).operation
  | adaptWrite bufValid a v =>
    obtain ⟨st, u, write, rfl⟩ := exec_adaptWrite_next h
    have effect := adapterWrite_registered_effect (kind := callAllowed (.adaptWrite bufValid a v) s.reg)
      (writeAllowed fun _ _ _ => rfl) 0 write
    exact (effect.trans (returns_effect _ 0 u _)).operation
  | apcDecode packed =>
    rw [exec_apcDecode] at h
    cases h
    exact (returns_effect (callAllowed _ s.reg) 0 s _).operation
  | schPoll hour minute schedule =>
    rw [exec_schPoll_next h]
    exact ⟨rfl, .inl rfl, .inr ⟨⟨hour, minute, schedule, rfl⟩, rfl, rfl⟩, .inl rfl, ⟨[], by simp, by simp⟩, id, id⟩
  | pschPoll hour minute second schedule => exact exec_pschPoll_operation h

/-! ### The invariant -/

theorem State.inv_iff {s : State} :
    s.inv = true ↔ s.canonical = true ∧ s.reg.consistent = true ∧ s.psch.inRange = true := by
  simp [State.inv, and_assoc]

theorem HandedBuffer.toBuffer_wf (h : HandedBuffer) : Memory.wf h.toBuffer.cells = true := Memory.wf_ofBytes h.inside

/-- Buffers handed over by the host are in canonical form. -/
theorem State.accept_inv {s : State} (c : HostCall) (rest : List HostCall) (h : s.inv = true) :
    (s.accept c rest).inv = true := by
  rw [State.inv_iff, State.canonical_iff] at h ⊢
  obtain ⟨⟨input, out, eout⟩, reg, psch⟩ := h
  refine ⟨⟨?_, ?_, ?_⟩, reg, psch⟩
  · cases given : c.input with
    | none => simpa [State.accept, given] using input
    | some bs => simpa [State.accept, given] using Memory.wf_ofBytes bs
  · cases given : c.output with
    | none => simpa [State.accept, given] using out
    | some buffer => simpa [State.accept, given] using buffer.toBuffer_wf
  · cases given : c.eout with
    | none => simpa [State.accept, given] using eout
    | some buffer => simpa [State.accept, given] using buffer.toBuffer_wf

theorem exec_inv {i : Instr} {s t : State} (inv : s.inv = true) (h : exec i s = .next t) : t.inv = true := by
  rw [State.inv_iff] at inv ⊢
  obtain ⟨canonical, consistent, inRange⟩ := inv
  have effect := exec_operation h
  refine ⟨effect.canonical canonical, ?_, effect.inRange inRange⟩
  rcases effect.reg with same | ⟨r, w, f, c, -, hr, hw, written⟩
  · rwa [same]
  · rw [written]
    exact registeredSlot_consistent hr hw

end Sys2Proof.Machine

namespace Sys2Proof

open Machine

/-- Settles O11: the host's buffers and every operation keep the invariant. -/
theorem stepKeepsTheInvariant : Obligations.StepKeepsTheInvariant := by
  intro s t inv h
  rcases step_eq_next h with ⟨-, rfl⟩ | ⟨c, rest, -, -, run⟩
  · exact inv
  · exact exec_inv (State.accept_inv c rest inv) run

/-- Settles O12: no operation writes the configuration. -/
theorem stepKeepsTheConfiguration : Obligations.StepKeepsTheConfiguration := by
  intro s t h
  rcases step_eq_next h with ⟨-, rfl⟩ | ⟨c, rest, -, -, run⟩
  · rfl
  · exact (exec_operation run).cfg

/-- Settles O13: the slot is left, or written with PROV_VALID set. -/
theorem providerStaysRegistered : Obligations.ProviderStaysRegistered := by
  intro i s t registered h
  rcases (exec_operation h).reg with same | ⟨r, w, f, c, -, -, -, written⟩
  · rwa [same]
  · rw [written]
    rfl

/-- Settles O14: the operations' effect on the slot. -/
theorem onlyRegisterWritesTheSlot : Obligations.OnlyRegisterWritesTheSlot :=
  fun _ _ _ h => (exec_operation h).reg.imp_right fun ⟨r, w, f, c, register, _, _, written⟩ =>
    ⟨r, w, f, c, register, written⟩

/-- Settles O15: the operations' effect on the schedulers. -/
theorem schedulersOwnTheirState : Obligations.SchedulersOwnTheirState :=
  fun _ _ _ h => ⟨(exec_operation h).sch, (exec_operation h).psch⟩

/-- Settles O16: the operations' calls, by the kind of each. -/
theorem operationsCallOnlyTheirCollaborators : Obligations.OperationsCallOnlyTheirCollaborators := by
  intro i s t h
  obtain ⟨es, history, allowed⟩ := (exec_operation h).calls
  refine ⟨es, history, fun x mem => ?_⟩
  have both := allowed x mem
  cases x <;> simpa [callAllowed, callRegistered] using both

/-- Settles O52: each operation's end. -/
theorem operationsWithoutBuffersTouchNone : Obligations.OperationsWithoutBuffersTouchNone := by
  refine ⟨?_, ?_, ?_, ?_⟩
  · intro r w f c s t h
    rcases exec_register_next h with ⟨-, -, rfl⟩ | rfl <;> rfl
  · intro packed s t h
    rw [exec_apcDecode] at h
    cases h
    rfl
  · intro hour minute schedule s t h
    rw [exec_schPoll_next h]
    rfl
  · intro hour minute second schedule s t h
    rw [(exec_pschPoll_next h).2]
    rfl

end Sys2Proof

/-! SUPPORT. Proofs about duties of the collaborators: kept, every packet operation ends (R111); broken, the operation is refused
(R159, R176, R230, R285). -/

namespace Sys2Proof.Machine

/-! ### Answers -/

theorem legalStatus_iff {b : Byte} : legalStatus b = true ↔ ∃ st, b = statusNumber st := by
  constructor
  · intro legal
    cases found : statusOfNumber b with
    | some st => exact ⟨st, statusNumber_of_statusOfNumber found⟩
    | none =>
      have le : b.toNat ≤ 6 := by simpa [legalStatus] using legal
      unfold statusOfNumber at found
      interval_cases number : b.toNat <;> cases found
  · rintro ⟨st, rfl⟩
    cases st with
    | ok => rfl
    | error c => cases c <;> rfl

/-- A handler's status is accepted exactly when the handler kept its duties (R251). -/
theorem handlerStatus_isOk {cap : Nat} {ans : HandlerAnswer} :
    (∃ st, handlerStatus cap ans = .ok st) ↔ handlerAnswerProper cap ans = true := by
  simp only [handlerStatus_eq_ok, exists_and_left, ← legalStatus_iff]
  simp [handlerAnswerProper, and_assoc]

theorem adapterRead_of_proper {a : Addr} {s : State} (registered : s.reg.provValid = true)
    (proper : readAnswerProper (s.readAnswer a) = true) : ∃ st v t, adapterRead true a s = .ok (st, v, t) := by
  obtain ⟨conduct, legal⟩ : (s.readAnswer a).conduct = .proper ∧ legalStatus (s.readAnswer a).status = true := by
    simpa [readAnswerProper] using proper
  obtain ⟨st, number⟩ := legalStatus_iff.1 legal
  cases st with
  | ok => exact ⟨_, _, _, adapterRead_of_ok registered conduct number⟩
  | error c => exact ⟨_, _, _, adapterRead_of_error registered conduct number⟩

theorem adapterWrite_of_proper {a : Addr} {v : Value} {s : State} (registered : s.reg.provValid = true)
    (proper : writeAnswerProper (s.writeAnswer a v) = true) : ∃ st t, adapterWrite true a v s = .ok (st, t) := by
  obtain ⟨conduct, legal⟩ :
      (s.writeAnswer a v).conduct = .proper ∧ legalStatus (s.writeAnswer a v).status = true := by
    simpa [writeAnswerProper] using proper
  obtain ⟨st, number⟩ := legalStatus_iff.1 legal
  exact ⟨st, _, adapterWrite_of_answer registered conduct number⟩

theorem adapterRead_of_improper {a : Addr} {s : State} (improper : readAnswerProper (s.readAnswer a) = false) :
    ∃ r, adapterRead true a s = .error r := by
  cases h : adapterRead true a s with
  | error r => exact ⟨r, rfl⟩
  | ok p =>
    rcases adapterRead_ok h with ⟨absent, -⟩ | ⟨-, -, conduct, number, -⟩
    · cases absent
    · have legal := legalStatus_iff.2 ⟨_, number⟩
      simp [readAnswerProper, conduct, legal] at improper

theorem adapterWrite_of_improper {a : Addr} {v : Value} {s : State}
    (improper : writeAnswerProper (s.writeAnswer a v) = false) : ∃ r, adapterWrite true a v s = .error r := by
  cases h : adapterWrite true a v s with
  | error r => exact ⟨r, rfl⟩
  | ok p =>
    rcases adapterWrite_ok h with ⟨absent, -⟩ | ⟨-, -, conduct, number, -⟩
    · cases absent
    · have legal := legalStatus_iff.2 ⟨_, number⟩
      simp [writeAnswerProper, conduct, legal] at improper

theorem handlerStatus_of_improper {cap : Nat} {ans : HandlerAnswer} (improper : handlerAnswerProper cap ans = false) :
    ∃ r, handlerStatus cap ans = .error r := by
  cases h : handlerStatus cap ans with
  | error r => exact ⟨r, rfl⟩
  | ok st =>
    rw [handlerStatus_isOk.1 ⟨st, h⟩] at improper
    cases improper

/-! ### Duties kept -/

theorem readsProper_writeOut (start : Addr) (n i k : Nat) (bs : List Byte) (s : State) :
    readsProper start n i (s.writeOut k bs) = readsProper start n i s := by
  induction n generalizing i s with
  | zero => rfl
  | succ n ih =>
    exact congrArg (fun rest => s.reg.provValid && readAnswerProper (s.readAnswer (addrAt start i))
      && ((s.readAnswer (addrAt start i)).status != 0 || rest)) (ih (i + 1) (s.afterRead (addrAt start i)))

theorem writesProper_writeOut (start : Addr) (vs : List Value) (i k : Nat) (bs : List Byte) (s : State) :
    writesProper start vs i (s.writeOut k bs) = writesProper start vs i s := by
  induction vs generalizing i s with
  | nil => rfl
  | cons v vs ih =>
    exact congrArg (fun rest => s.reg.provValid && writeAnswerProper (s.writeAnswer (addrAt start i) v)
      && ((s.writeAnswer (addrAt start i) v).status != 0 || rest)) (ih (i + 1) (s.afterWrite (addrAt start i) v))

theorem readBlock_of_readsProper {start : Addr} {n i : Nat} {s : State} (proper : readsProper start n i s = true) :
    ∃ p, readBlock start n i s = .ok p := by
  induction n generalizing i s with
  | zero => exact ⟨_, rfl⟩
  | succ n ih =>
    obtain ⟨⟨registered, answer⟩, others⟩ : (s.reg.provValid = true ∧
        readAnswerProper (s.readAnswer (addrAt start i)) = true) ∧ ((s.readAnswer (addrAt start i)).status ≠ 0 ∨
          readsProper start n (i + 1) (s.afterRead (addrAt start i)) = true) := by
      simpa only [readsProper, Bool.and_eq_true, Bool.or_eq_true, bne_iff_ne] using proper
    obtain ⟨st, v, t, read⟩ := adapterRead_of_proper registered answer
    rw [readBlock, read]
    cases st with
    | error c => exact ⟨_, rfl⟩
    | ok =>
      rcases adapterRead_ok read with ⟨absent, -⟩ | ⟨-, -, -, zero, ⟨-, -, rfl⟩ | ⟨c, impossible, -⟩⟩
      · cases absent
      · refine ih ?_
        rw [readsProper_writeOut]
        exact others.resolve_left fun nonzero => nonzero zero
      · cases impossible

theorem writeBlock_of_writesProper {start : Addr} {vs : List Value} {i : Nat} {s : State}
    (proper : writesProper start vs i s = true) : ∃ p, writeBlock start vs i s = .ok p := by
  induction vs generalizing i s with
  | nil => exact ⟨_, rfl⟩
  | cons v vs ih =>
    obtain ⟨⟨registered, answer⟩, others⟩ : (s.reg.provValid = true ∧
        writeAnswerProper (s.writeAnswer (addrAt start i) v) = true) ∧ ((s.writeAnswer (addrAt start i) v).status ≠ 0 ∨
          writesProper start vs (i + 1) (s.afterWrite (addrAt start i) v) = true) := by
      simpa only [writesProper, Bool.and_eq_true, Bool.or_eq_true, bne_iff_ne] using proper
    obtain ⟨st, t, write⟩ := adapterWrite_of_proper registered answer
    rw [writeBlock, write]
    cases st with
    | error c => exact ⟨_, rfl⟩
    | ok =>
      rcases adapterWrite_ok write with ⟨absent, -⟩ | ⟨-, -, -, zero, rfl⟩
      · cases absent
      · exact ih (others.resolve_left fun nonzero => nonzero zero)

theorem callFirmware_of_proper {p : List Byte} {s : State}
    (proper : handlerAnswerProper s.cfg.cap.val (s.firmwareAnswer p) = true) : ∃ q, callFirmware p s = .ok q := by
  obtain ⟨st, status⟩ := handlerStatus_isOk.2 proper
  cases st <;> exact ⟨_, by rw [callFirmware, status]⟩

theorem callCommand_of_proper {p : List Byte} {s : State}
    (proper : handlerAnswerProper s.cfg.cap.val (s.commandAnswer p) = true) : ∃ q, callCommand p s = .ok q := by
  obtain ⟨st, status⟩ := handlerStatus_isOk.2 proper
  cases st <;> exact ⟨_, by rw [callCommand, status]⟩

/-- With all duties kept in the calls it makes, a handler ends. -/
theorem handlerSteps_of_callsProper {i : Instr} {s : State} (sound : structuralError s i = none)
    (proper : callsProper s i = true) : ∃ p, handlerSteps s i = .ok p := by
  simp only [callsProper, sound, Option.isSome_none, Bool.false_or] at proper
  unfold handlerSteps
  split
  next f =>
    obtain ⟨p, block⟩ := readBlock_of_readsProper (s := s.writeOut 0 _) ((readsProper_writeOut ..).trans proper)
    exact ⟨_, by rw [block]; rfl⟩
  next f =>
    obtain ⟨p, block⟩ := writeBlock_of_writesProper (s := s.writeOut 0 _) ((writesProper_writeOut ..).trans proper)
    exact ⟨_, by rw [block]; rfl⟩
  next a =>
    obtain ⟨registered, answer⟩ := Bool.and_eq_true_iff.1 proper
    obtain ⟨st, v, t, read⟩ := adapterRead_of_proper (s := s.writeOut 0 (0x07 :: be16 a)) registered answer
    exact ⟨_, by rw [read]; rfl⟩
  next f =>
    obtain ⟨registered, answer⟩ := Bool.and_eq_true_iff.1 proper
    obtain ⟨st, t, write⟩ := adapterWrite_of_proper (s := s.writeOut 0 (0x06 :: (be16 f.addr ++ be32 f.value)))
      registered answer
    exact ⟨_, by rw [write]; rfl⟩
  · exact callFirmware_of_proper proper
  · exact callCommand_of_proper proper
  · exact ⟨_, rfl⟩

theorem exec_request_ends {i : Instr} {bs : List Byte} {s : State} (packet : encode i = some bs)
    (duty : parseDuty s bs.length = none) (proper : callsProper s i = true) : ∃ t, exec i s = .next t := by
  obtain ⟨tag, rest, rfl⟩ := encode_eq_cons packet
  have ready := parseReady_iff.2 duty
  cases error : structuralError s i with
  | some c => exact ⟨_, exec_of_structuralError packet ready error⟩
  | none =>
    obtain ⟨p, steps⟩ := handlerSteps_of_callsProper error proper
    exact ⟨_, (exec_of_steps packet ready error).trans (by rw [steps]; rfl)⟩

theorem exec_parse_ends {inValid : Bool} {len : Nat} {s : State} (duty : parseDuty s len = none)
    (input : inValid = true → ∃ bs, s.input.readRange 0 len = some bs ∧
      ∀ i, decode bs = .ok i → callsProper s i = true) : ∃ t, exec (.parse inValid len) s = .next t := by
  rcases exec_parse_cases (inValid := inValid) duty with empty | ⟨valid, unreadable, -⟩ | ⟨tag, rest, readable, handler⟩
  · exact ⟨_, empty⟩
  · obtain ⟨bs, readable, -⟩ := input valid
    rw [unreadable] at readable
    cases readable
  · cases inValid with
    | false => exact ⟨_, exec_parse_without_input duty (.inl rfl)⟩
    | true =>
      obtain ⟨bs, same, proper⟩ := input rfl
      obtain rfl : tag :: rest = bs := Option.some.inj (readable.symm.trans same)
      rw [handler]
      refine exec_request_ends (encode_decodePacket tag rest) ?_ (proper _ rfl)
      rwa [Memory.readRange_length readable]

/-! ### Duties broken by the host -/

theorem exec_packet_of_duty {i : Instr} {bs : List Byte} {s : State} {r : Refusal}
    (packet : encode i = some bs ∨ (∃ v, i = .parse v bs.length) ∨ ∃ g c, i = .err g c ∧ bs.length = 1)
    (d : parseDuty s bs.length = some r) : exec i s = .refused r := by
  rcases packet with request | ⟨v, rfl⟩ | ⟨tag, c, rfl, one⟩
  · exact exec_of_duty request d
  · exact exec_parse_of_duty d
  · exact exec_err_of_duty (one ▸ d)

/-! ### Duties broken in a call -/

theorem emitBlocks_of_readFails {a : SixBit} {more : List SixBit} {n : Nat} {c : ErrorCode} {s : State}
    (registered : s.reg.provValid = true) (answer : s.readFails (additionalAddr a) c = true) :
    emitBlocks (a :: more) n s = .error .additionalReadFailed := by
  rw [emitBlocks, adapterRead_of_readFails registered answer]

theorem exec_rds_of_error {a : Addr} {s : State} {r : Refusal} (ready : s.parseReady 3 = true)
    (h : adapterRead true a s = .error r) : exec (.rds (.valid a)) s = .refused r := by
  rw [exec_rds_valid ready, handlerSteps, adapterRead_writeOut, h]
  rfl

theorem exec_wrs_of_error {a : Addr} {v : Value} {s : State} {r : Refusal} (ready : s.parseReady 7 = true)
    (h : adapterWrite true a v s = .error r) : exec (.wrs (.valid ⟨a, v⟩)) s = .refused r := by
  rw [exec_wrs_steps ready, handlerSteps, adapterWrite_writeOut, h]
  rfl

/-- RDM is refused when a read after the ones answered Ok is. -/
theorem exec_rdm_of_error {start : Addr} {count : Half} {vs : List Value} {s : State} {r : Refusal}
    (ready : s.parseReady 5 = true) (fits : 5 + 4 * count.toNat ≤ s.cfg.cap.val) (short : vs.length < count.toNat)
    (registered : vs ≠ [] → s.reg.provValid = true) (answers : readsOk start vs 0 s = true)
    (h : adapterRead true (addrAt start vs.length) (afterReads start vs.length 0 s) = .error r) :
    exec (.rdm (.valid ⟨start, count⟩)) s = .refused r := by
  obtain ⟨k, hk⟩ : ∃ k, count.toNat = vs.length + (k + 1) := ⟨count.toNat - vs.length - 1, by omega⟩
  have reads : readBlock start count.toNat 0 (s.writeOut 0 (0x03 :: (be16 start ++ be16 count))) = .error r := by
    rw [hk, readBlock_after_header (k + 1) rfl registered answers]
    exact readBlock_of_error (by rw [adapterRead_writeOut, h]; rfl)
  rw [exec_rdm_valid ready fits, handlerSteps, reads]
  rfl

/-- WRM is refused when a write after the ones answered Ok is. -/
theorem exec_wrm_of_error {start : Addr} {vs more : List Value} {v : Value} {s : State} {r : Refusal}
    (ready : s.parseReady (5 + 4 * (vs ++ v :: more).length) = true) (registered : vs ≠ [] → s.reg.provValid = true)
    (answers : writesOk start vs 0 s = true)
    (h : adapterWrite true (addrAt start vs.length) v (afterWrites start vs 0 s) = .error r) :
    exec (.wrm (.valid ⟨start, vs ++ v :: more⟩)) s = .refused r := by
  have writes := writeBlock_of_writesOk (start := start) (i := 0)
    (s := s.writeOut 0 (0x10 :: (be16 start ++ be16 (BitVec.ofNat 16 (vs ++ v :: more).length)))) (v :: more)
    registered (by simpa using answers)
  rw [afterWrites_writeOut, Nat.zero_add, writeBlock_of_error (r := r) (by rw [adapterWrite_writeOut, h]; rfl)] at writes
  rw [exec_wrm_valid ready, handlerSteps, writes]
  rfl

/-- ENC_SHORT is refused when the loop is, after the reads answered Ok. -/
theorem exec_encShort_of_blocks_error {payload : Word} {number : Byte} {schedule : Half} {packed : Word}
    {as more : List SixBit} {a : SixBit} {vs : List Value} {s : State} {r : Refusal}
    (room : s.eout.room.holds 32 = true) (small : number.toNat ≤ 63) (registered : as ≠ [] → s.reg.provValid = true)
    (addresses : unpackAddresses packed = as ++ a :: more) (answers : additionalReadsOk as vs s = true)
    (h : ∀ n bs, emitBlocks (a :: more) n ((afterAdditionalReads as s).writeEout 0 bs) = .error r) :
    exec (.encShort payload number schedule packed) s = .refused r := by
  apply exec_encShort_of_error room small
  rw [addresses, emitBlocks_after_core (a :: more) (shortCore_length payload number schedule) registered answers]
  exact h _ _

theorem exec_fwu_of_improper {body : List Byte} {s : State} (ready : s.parseReady (body.length + 1) = true)
    (present : s.reg.fwValid = true)
    (improper : handlerAnswerProper s.cfg.cap.val (s.firmwareAnswer (0x29 :: body)) = false) :
    ∃ r, exec (.fwu (.valid body)) s = .refused r := by
  obtain ⟨r, status⟩ := handlerStatus_of_improper improper
  exact ⟨r, by rw [exec_fwu_valid ready present, callFirmware, status]; rfl⟩

theorem exec_ctl_of_improper {body : List Byte} {s : State} (ready : s.parseReady (body.length + 1) = true)
    (present : s.reg.cmdValid = true)
    (improper : handlerAnswerProper s.cfg.cap.val (s.commandAnswer (0x27 :: body)) = false) :
    ∃ r, exec (.ctl (.valid body)) s = .refused r := by
  obtain ⟨r, status⟩ := handlerStatus_of_improper improper
  exact ⟨r, by rw [exec_ctl_valid ready present, callCommand, status]; rfl⟩

/-- A first field above 0 is the first address (R190). -/
theorem unpackAddresses_of_first {packed : Word} (h : packedField packed 0 ≠ 0) :
    ∃ more, unpackAddresses packed = packedField packed 0 :: more :=
  ⟨_, unpackFields_of_ne_zero h⟩

end Sys2Proof.Machine

namespace Sys2Proof

open Machine

/-- Settles O29: PARSE ends by the handler of the decoded packet, and every end's response fits. -/
theorem parseAlwaysEnds : Obligations.ParseAlwaysEnds := by
  intro inValid len s ready input
  obtain ⟨t, h⟩ := exec_parse_ends (parseReady_iff.1 ready) input
  obtain ⟨n, result, fits⟩ := (exec_packetEnd (.inr (.inr ⟨inValid, len, rfl⟩)) h).result_le
  exact ⟨t, n, h, result, fits⟩

/-- Settles O53: every packet operation looks at the host's duties first, in their order. -/
theorem brokenParseDutiesAreRefused : Obligations.BrokenParseDutiesAreRefused := by
  refine ⟨fun i bs s packet => ⟨fun overlap => ?_, fun apart small => ?_, fun apart room long => ?_⟩, ?_⟩
  · exact exec_packet_of_duty packet (by simp [parseDuty, overlap])
  · exact exec_packet_of_duty packet (by simp [parseDuty, apart, small])
  · exact exec_packet_of_duty packet (by simp [parseDuty, apart, room, long])
  · exact fun len s ready unreadable => exec_parse_unreadable (parseReady_iff.1 ready) unreadable

/-- Settles O55: the first call of each operation is refused. -/
theorem unregisteredProviderIsRefused : Obligations.UnregisteredProviderIsRefused := by
  intro s unregistered
  refine ⟨?_, ?_, ?_, ?_, ?_⟩
  · intro start count ready fits pos
    exact exec_rdm_of_error (vs := []) ready fits pos (absurd rfl) rfl
      (adapterRead_of_unregistered unregistered)
  · intro start vs ready nonempty
    cases vs with
    | nil => exact absurd rfl nonempty
    | cons v more =>
      exact exec_wrm_of_error (vs := []) ready (absurd rfl) rfl (adapterWrite_of_unregistered unregistered)
  · exact fun a ready => exec_rds_of_error ready (adapterRead_of_unregistered unregistered)
  · exact fun a v ready => exec_wrs_of_error ready (adapterWrite_of_unregistered unregistered)
  · intro payload number schedule packed room small first
    obtain ⟨more, addresses⟩ := unpackAddresses_of_first first
    exact exec_encShort_of_blocks_error (as := []) (vs := []) room small (absurd rfl) addresses rfl
      fun _ _ => emitBlocks_of_error (adapterRead_of_unregistered unregistered)

/-- Settles O56: the operation runs past the calls answered Ok, and the improper answer is refused. -/
theorem brokenCollaboratorDutiesAreRefused : Obligations.BrokenCollaboratorDutiesAreRefused := by
  intro s
  refine ⟨?_, ?_, ?_, ?_, fun body => exec_fwu_of_improper, fun body => exec_ctl_of_improper, ?_, ?_, ?_⟩
  · intro a ready _ improper
    obtain ⟨r, refused⟩ := adapterRead_of_improper improper
    exact ⟨r, exec_rds_of_error ready refused⟩
  · intro a v ready _ improper
    obtain ⟨r, refused⟩ := adapterWrite_of_improper improper
    exact ⟨r, exec_wrs_of_error ready refused⟩
  · intro start count vs ready fits short registered answers improper
    obtain ⟨r, refused⟩ := adapterRead_of_improper improper
    exact ⟨r, exec_rdm_of_error ready fits short (fun _ => registered) answers refused⟩
  · intro start vs more v ready _ registered answers improper
    obtain ⟨r, refused⟩ := adapterWrite_of_improper improper
    exact ⟨r, exec_wrm_of_error ready (fun _ => registered) answers refused⟩
  · intro payload number schedule packed as more a vs room small registered addresses answers improper
    obtain ⟨r, refused⟩ := adapterRead_of_improper improper
    refine ⟨r, exec_encShort_of_blocks_error room small (fun _ => registered) addresses answers fun n bs => ?_⟩
    exact emitBlocks_of_error (by rw [adapterRead_writeEout, refused]; rfl)
  · intro a _ improper
    obtain ⟨r, refused⟩ := adapterRead_of_improper improper
    exact ⟨r, exec_adaptRead_of_error refused⟩
  · intro a v _ improper
    obtain ⟨r, refused⟩ := adapterWrite_of_improper improper
    exact ⟨r, exec_adaptWrite_of_error refused⟩

/-- Settles O57: the loop runs past the reads answered Ok and is refused at the failing one. -/
theorem encShortRefusesAFailingRead : Obligations.EncShortRefusesAFailingRead := by
  intro payload number schedule packed as more a vs c s room small registered addresses answers failure
  exact exec_encShort_of_blocks_error room small (fun _ => registered) addresses answers
    fun _ _ => emitBlocks_of_readFails (by simpa using registered) failure

end Sys2Proof
